-- ==== Sys2Proof/Word.lean ====
section
/-! DEFINITION. The word type of the Snowflake ID block and its plainest readings. -/

namespace Sys2Proof

/-- A port value, register value or intermediate value: an unsigned 64-bit vector (00_scope.md R8).
Lean's `<<<`, `>>>`, `|||`, `&&&`, `+`, `-` on it are the rule's operators: shifts lose bits and bring in
zeros, sums and differences wrap. -/
abbrev Word := BitVec 64

/-- A sequence number: SEQ is 12 bits wide (10_state.md R26), so `+ 1` is modulo 2^12. -/
abbrev SeqNo := BitVec 12

/-- Eight bits, for a port value carried as bytes (20_memory.md R43). -/
abbrev Byte := BitVec 8

/-- A requester. The block sees no identifier of it (60_exceptions.md R131); the number only says to whom
a response goes (20_memory.md R45). -/
abbrev RequesterId := Nat

end Sys2Proof
end

