-- ==== Sys2Proof/Syntax.lean ====
section
/-! DEFINITION. Requests as they stand on the request port, the five operations, and the instructions a
request decodes to. -/

namespace Sys2Proof

/-- A request REQ: the operation field and three operands (30_encoding.md R60). -/
structure Request where
  op : BitVec 4
  a : Word
  b : Word
  c : Word
deriving DecidableEq, Repr, Inhabited

/-- The five operations (30_encoding.md R62). -/
inductive Op where
  | semEncode
  | semDecode
  | sfCompose
  | genInit
  | genNext
deriving DecidableEq, Repr

/-- The two units behind the request decoder (00_scope.md R3). -/
inductive ExecUnit where
  | codec
  | generator
deriving DecidableEq, Repr

/-- A legal request, one constructor per row of the opcode table. Every request carries three operands
(30_encoding.md R60), so every constructor does too, those the operation ignores among them. -/
inductive Instr where
  /-- SEM_ENCODE: `a` object ID, `b` node ID, `c` type ID (41_semantic_codec.md R100). -/
  | semEncode (a b c : Word)
  /-- SEM_DECODE: `a` identifier (41_semantic_codec.md R101). -/
  | semDecode (a b c : Word)
  /-- SF_COMPOSE: `a` time delta, `b` node ID, `c` sequence (40_generator.md R80). -/
  | sfCompose (a b c : Word)
  /-- GEN_INIT: `a` node ID (40_generator.md R81). -/
  | genInit (a b c : Word)
  /-- GEN_NEXT: no operand is read (40_generator.md R82). -/
  | genNext (a b c : Word)
deriving DecidableEq, Repr

end Sys2Proof
end

