-- ==== Sys2Proof/Config.lean ====
section
/-! DEFINITION. What the spec leaves open (00_scope.md R6): parameters and free values, none with a body. -/

namespace Sys2Proof

/-- The two orders in which a platform may carry a port value as eight bytes (20_memory.md R43). -/
inductive ByteOrder where
  | mostSignificantFirst
  | leastSignificantFirst
deriving DecidableEq, Repr, Inhabited

/-- One move of one agent. The requesters and reset are the environment (20_memory.md R57); `serve` and
`spin` are the block's own moves, whose order the spec leaves open (20_memory.md R49). DESIGN CHOICE
(safe): log 1. -/
inductive Move where
  /-- Requester `r` issues the request `q`. -/
  | issue (r : RequesterId) (q : Request)
  /-- The request decoder takes the outstanding request of requester `r`. -/
  | serve (r : RequesterId)
  /-- The generator unit, in its busy-wait, takes one more clock sample. -/
  | spin
  /-- Reset is asserted. -/
  | reset
deriving DecidableEq, Repr, Inhabited

/-- EPOCH_MS, "an implementation-chosen absolute instant": open (00_scope.md R6; log 11). -/
opaque Config.epochMs : Word

/-- BYTE_ORDER: open (00_scope.md R6, 20_memory.md R43; log 14). -/
opaque Config.byteOrder : ByteOrder

/-- How many requesters there are beyond the first: open (00_scope.md R6; log 6). -/
opaque Config.furtherRequesters : Nat

/-- N_REQUESTERS, at least 1 (00_scope.md R6). -/
def Config.nRequesters : Nat := Config.furtherRequesters + 1

/-- CLOCK: the free sample number `n` (00_scope.md R6 and R9; log 2). -/
opaque Config.clock : Nat → Word

/-- The free move number `n`: what the environment does, and which waiting request is taken, is open
(20_memory.md R49 and R57; log 3). -/
opaque Config.move : Nat → Move

end Sys2Proof
end

