-- ==== Sys2Proof/WellFormed.lean ====
section
/-! DEFINITION. Which requests and instructions are well formed. -/

namespace Sys2Proof

/-- A request is well formed when its operation code is legal; its operands do not matter
(30_encoding.md R63, R64). The list is the illegal codes as R63 writes them out. -/
def Request.wellFormed (q : Request) : Bool :=
  !([0x3, 0x4, 0x5, 0x6, 0x7, 0xA, 0xB, 0xC, 0xD, 0xE, 0xF] : List (BitVec 4)).contains q.op

/-- Every operand value of a legal operation is legal (30_encoding.md R64), so an instruction has nothing
to check: the types of its fields say all of it. -/
def Instr.wellFormed : Instr → Bool
  | .semEncode _ _ _ => true
  | .semDecode _ _ _ => true
  | .sfCompose _ _ _ => true
  | .genInit _ _ _ => true
  | .genNext _ _ _ => true

end Sys2Proof
end

