-- ==== Sys2Proof/Decode.lean ====
section
/-! DEFINITION. The request word, the decoder, the encoder, and the opcode table's own bit numbering. -/

namespace Sys2Proof

/-- The request read from its 196-bit word `{OP, A, B, C}`, OP in the most significant bits
(30_encoding.md R60). -/
def Request.ofWord (w : BitVec 196) : Request where
  op := w.extractLsb' 192 4
  a := w.extractLsb' 128 64
  b := w.extractLsb' 64 64
  c := w.extractLsb' 0 64

/-- The request's 196-bit word `{OP, A, B, C}` (30_encoding.md R60). -/
def Request.toWord (q : Request) : BitVec 196 := q.op ++ q.a ++ q.b ++ q.c

/-- OP[3] selects the unit (30_encoding.md R61). -/
def Request.unit (q : Request) : ExecUnit := if q.op.getLsbD 3 then .generator else .codec

/-- The operation codes (30_encoding.md R62). -/
def Op.code : Op → BitVec 4
  | .semEncode => 0x0
  | .semDecode => 0x1
  | .sfCompose => 0x2
  | .genInit => 0x8
  | .genNext => 0x9

/-- The unit that executes an operation (30_encoding.md R62, column "unit"). -/
def Op.unit : Op → ExecUnit
  | .semEncode => .codec
  | .semDecode => .codec
  | .sfCompose => .codec
  | .genInit => .generator
  | .genNext => .generator

/-- The operation a code selects, none for an illegal code (30_encoding.md R63, R64). -/
def Op.ofCode (code : BitVec 4) : Option Op :=
  [Op.semEncode, .semDecode, .sfCompose, .genInit, .genNext].find? fun o => o.code == code

/-- Why a request is rejected. -/
inductive DecodeError where
  /-- Its operation code is illegal (30_encoding.md R63). Raised by the request decoder, which answers it
  with the status ILLEGAL_OP. Safe: the spec gives the response. -/
  | illegalOp (op : BitVec 4)
deriving DecidableEq, Repr

/-- The instruction of an operation and its operands. -/
def Instr.ofOp (o : Op) (a b c : Word) : Instr :=
  match o with
  | .semEncode => .semEncode a b c
  | .semDecode => .semDecode a b c
  | .sfCompose => .sfCompose a b c
  | .genInit => .genInit a b c
  | .genNext => .genNext a b c

/-- The request decoder: by OP alone, every operand value is legal (30_encoding.md R64). -/
def decode (q : Request) : Except DecodeError Instr :=
  match Op.ofCode q.op with
  | some o => .ok (.ofOp o q.a q.b q.c)
  | none => .error (.illegalOp q.op)

/-- The decoder on the request's 196-bit word. -/
def decodeWord (w : BitVec 196) : Except DecodeError Instr := decode (.ofWord w)

/-- An instruction's operation. -/
def Instr.op : Instr → Op
  | .semEncode _ _ _ => .semEncode
  | .semDecode _ _ _ => .semDecode
  | .sfCompose _ _ _ => .sfCompose
  | .genInit _ _ _ => .genInit
  | .genNext _ _ _ => .genNext

/-- The request of an instruction (30_encoding.md R60, R62). -/
def encodeRequest : Instr → Request
  | .semEncode a b c => ⟨Op.semEncode.code, a, b, c⟩
  | .semDecode a b c => ⟨Op.semDecode.code, a, b, c⟩
  | .sfCompose a b c => ⟨Op.sfCompose.code, a, b, c⟩
  | .genInit a b c => ⟨Op.genInit.code, a, b, c⟩
  | .genNext a b c => ⟨Op.genNext.code, a, b, c⟩

/-- The encoder: the 196-bit word of an instruction. -/
def encode (i : Instr) : BitVec 196 := (encodeRequest i).toWord

/-- The request whose bits are `w`, numbered as the opcode table numbers them: OP in bits 3 to 0, as its
match and mask have it, and the operands, to which the table gives no bits, counted on from there in the
order A, B, C. Bits from `nbits` up are 0. DESIGN CHOICE (safe: no step reads this numbering): log 12. -/
def Request.ofTableWord (nbits w : Nat) : Request where
  op := .ofNat 4 (w % 2 ^ nbits)
  a := .ofNat 64 (w % 2 ^ nbits / 2 ^ 4)
  b := .ofNat 64 (w % 2 ^ nbits / 2 ^ 68)
  c := .ofNat 64 (w % 2 ^ nbits / 2 ^ 132)

/-- The instruction the decoder reads from a word in the opcode table's numbering, laid out first as the
request port carries it (30_encoding.md R60). -/
def decodeTableWord (nbits w : Nat) : Option Instr :=
  match decodeWord (Request.ofTableWord nbits w).toWord with
  | .ok i => some i
  | .error _ => none

/-- The eight bytes that carry a port value under a byte order (20_memory.md R43). -/
def Word.toBytes (o : ByteOrder) (v : Word) : List Byte :=
  match o with
  | .leastSignificantFirst => [0, 1, 2, 3, 4, 5, 6, 7].map fun i => v.extractLsb' (8 * i) 8
  | .mostSignificantFirst => [7, 6, 5, 4, 3, 2, 1, 0].map fun i => v.extractLsb' (8 * i) 8

/-- The value of bytes, most significant first. -/
def Word.ofBytesBE (bytes : List Byte) : Word :=
  bytes.foldl (fun v x => v <<< 8 ||| x.setWidth 64) 0

/-- The port value that eight bytes carry under a byte order (20_memory.md R43). -/
def Word.ofBytes (o : ByteOrder) (bytes : List Byte) : Word :=
  match o with
  | .leastSignificantFirst => Word.ofBytesBE bytes.reverse
  | .mostSignificantFirst => Word.ofBytesBE bytes

/-- A port value as this platform carries it as bytes: in the order BYTE_ORDER, which is open
(00_scope.md R6, 20_memory.md R43). -/
def Word.carriedBytes (v : Word) : List Byte := Word.toBytes Config.byteOrder v

end Sys2Proof
end

