-- ==== Sys2Proof/Machine/State.lean ====
section
/-! DEFINITION. The state of the block and its surroundings as plain data, and the state after reset. -/

namespace Sys2Proof.Machine

/-- The status names of a response; the fourth code of the 2-bit field is never returned
(30_encoding.md R66), so it has no constructor. -/
inductive Status where
  | ok
  | illegalOp
  | uninit
deriving DecidableEq, Repr

/-- A response RSP: a status and four results (30_encoding.md R65). -/
structure Response where
  st : Status
  r0 : Word
  r1 : Word
  r2 : Word
  r3 : Word
deriving DecidableEq, Repr

/-- A response on its way to the requester whose request it answers (20_memory.md R45). -/
structure Delivery where
  dest : RequesterId
  response : Response
deriving DecidableEq, Repr

/-- PHASE, the generator unit's exclusive lock (10_state.md R28). Between two steps it is BUSY only while
a GEN_NEXT spins (log 4), so BUSY carries whose GEN_NEXT that is and the operation's locals, the sampled
time delta `t` and the wrapped sequence number `seq` (10_state.md R32 (c)). -/
inductive Phase where
  | idle
  | busy (owner : RequesterId) (t : Word) (seq : SeqNo)
deriving DecidableEq, Repr

/-- The outstanding requests, at most one a requester (20_memory.md R46), in the canonical form of
`Pending.wf`: the set is unordered (10_state.md R32 (b)), so equal sets are equal lists. -/
abbrev Pending := List (RequesterId × Request)

/-- The canonical form of the outstanding requests: requesters strictly rising. -/
abbrev Pending.wf (p : Pending) : Prop := (p.map Prod.fst).Pairwise (· < ·)

/-- What comes from outside, in order: the items already known, then free values drawn by number. The
model's own field. DESIGN CHOICE (safe): log 2, log 3. -/
structure Supply (α : Type) where
  ahead : List α
  drawn : Nat
deriving DecidableEq, Repr

/-- Everything the block holds, what stands on its ports, and what comes from outside it. -/
structure State where
  /-- EPOCH (10_state.md R23). -/
  epoch : Word
  /-- NODE (10_state.md R24). -/
  node : Word
  /-- LAST (10_state.md R25). -/
  last : Word
  /-- SEQ (10_state.md R26). -/
  seq : SeqNo
  /-- INIT_DONE (10_state.md R27). -/
  initDone : Bool
  /-- PHASE (10_state.md R28). -/
  phase : Phase
  /-- The waiting and in-flight requests (10_state.md R32 (b), R36). -/
  pending : Pending
  /-- Whose request the request decoder is handling (log 8). -/
  active : RequesterId
  /-- The clock port: the sample the last step took, if it took one (20_memory.md R56; log 8). -/
  clk : Option Word
  /-- The response port: what the last step delivered, if anything (20_memory.md R40; log 8). -/
  rsp : Option Delivery
  /-- The time source's coming samples (00_scope.md R6, CLOCK; log 2). -/
  samples : Supply Word
  /-- The agents' coming moves (20_memory.md R49, R57; log 3). -/
  moves : Supply Move
deriving DecidableEq, Repr

/-- Why the machine stops. No instruction raises one: every operation of the block is total. -/
inductive Fault where
  /-- The environment issued a request for a requester that has one outstanding, which it is assumed never
  to do (20_memory.md R46, R57). Raised by the move `issue`. Safe: the model stops (log 5). -/
  | secondRequest (r : RequesterId)
  /-- The environment issued a request for a requester that is not one of the N_REQUESTERS
  (00_scope.md R6). Raised by the move `issue`. Safe: the model stops (log 6). -/
  | noSuchRequester (r : RequesterId)
deriving DecidableEq, Repr

/-- Why the model gives no meaning. -/
inductive Refusal where
  /-- An instruction without a meaning yet, by its mnemonic. Raised by an arm of `exec`; no arm raises it
  now. Safe: the model stops. -/
  | notModelled (mnemonic : String)
deriving DecidableEq, Repr

/-- The state right after reset: 10_state.md R36 for the block's registers and its requests. The ports,
and the numbers from which free values are drawn, are the model's own (log 8, log 9). -/
def State.reset : State where
  epoch := Config.epochMs
  node := 0
  last := 0
  seq := 0
  initDone := false
  phase := .idle
  pending := []
  active := 0
  clk := none
  rsp := none
  samples := ⟨[], 0⟩
  moves := ⟨[], 0⟩

end Sys2Proof.Machine
end

