-- ==== Sys2Proof/Machine/Flags.lean ====
section
/-! DEFINITION. The block has no flags (10_state.md R30). What a request produces beside its results is the
2-bit status field of its response, and this is its coding. -/

namespace Sys2Proof.Machine

/-- The status field ST of a response (30_encoding.md R66). -/
def Status.code : Status → BitVec 2
  | .ok => 0
  | .illegalOp => 1
  | .uninit => 2

/-- The status a field names; code 3 is reserved (30_encoding.md R66). -/
def Status.ofCode (st : BitVec 2) : Option Status :=
  [Status.ok, .illegalOp, .uninit].find? fun x => x.code == st

/-- The response of an error status: all results 0 (60_exceptions.md R123). -/
def errorResponse (st : Status) : Response := ⟨st, 0, 0, 0, 0⟩

end Sys2Proof.Machine
end

