-- ==== Sys2Proof/Machine/Operands.lean ====
section
/-! DEFINITION. The operand arithmetic of the five operations: the identifier layouts and the time delta.
The field widths and offsets are hardwired (10_state.md R29). -/

namespace Sys2Proof.Machine

/-- `v mod 2^k`, which is `v[k-1:0]`, zero-extended (00_scope.md R8). -/
def modPow2 (k : Nat) (v : Word) : Word := (v.setWidth k).setWidth 64

/-- The signed comparison `a <=s b` (00_scope.md R8). -/
def lesSigned (a b : Word) : Bool := decide (a.toInt ≤ b.toInt)

/-- The semantic packing (41_semantic_codec.md R100): node and type IDs are reduced, the object ID only by
the shift. -/
def packSemantic (objectId nodeId typeId : Word) : Word :=
  objectId <<< 23 ||| modPow2 13 nodeId <<< 10 ||| modPow2 10 typeId

/-- The object ID of an identifier: a logical shift (41_semantic_codec.md R101; 90_conflicts.md C3). -/
def semanticObject (id : Word) : Word := id >>> 23

/-- The node ID of an identifier, its middle 13 bits (41_semantic_codec.md R101). -/
def semanticNode (id : Word) : Word := (id <<< 41) >>> 51

/-- The type ID of an identifier (41_semantic_codec.md R101). -/
def semanticType (id : Word) : Word := id &&& 0x3FF

/-- The global type ID of an identifier (41_semantic_codec.md R101, R105). -/
def semanticGlobalType (id : Word) : Word := id &&& 0x7FFFFF

/-- The classic composition, without masks (40_generator.md R80; GEN_NEXT's step 5, R82). -/
def composeClassic (time nodeId sequence : Word) : Word :=
  time <<< 22 ||| nodeId <<< 12 ||| sequence

/-- The time delta of a clock sample: modulo 2^64 (40_generator.md R82, step 1). -/
def timeDelta (sample epoch : Word) : Word := sample - epoch

end Sys2Proof.Machine
end

