-- ==== Sys2Proof/Machine/Ops.lean ====
section
/-! DEFINITION. The named operations over the state that the meanings and the agents' moves are made of:
the set of outstanding requests, drawing from outside, responding, the error response, reset. -/

namespace Sys2Proof.Machine

/-- A requester's outstanding request, if it has one (20_memory.md R46). -/
def Pending.find (p : Pending) (r : RequesterId) : Option Request :=
  match p with
  | [] => none
  | (r', q) :: rest => if r' = r then some q else Pending.find rest r

/-- Without a requester's outstanding request. -/
def Pending.erase (p : Pending) (r : RequesterId) : Pending :=
  match p with
  | [] => []
  | (r', q) :: rest => if r' = r then Pending.erase rest r else (r', q) :: Pending.erase rest r

/-- With `q` as a requester's outstanding request, in the place the canonical form gives it. -/
def Pending.insert (p : Pending) (r : RequesterId) (q : Request) : Pending :=
  match p with
  | [] => [(r, q)]
  | (r', q') :: rest =>
    if r < r' then (r, q) :: (r', q') :: rest
    else if r = r' then (r, q) :: rest
    else (r', q') :: Pending.insert rest r q

/-- The next item from outside: a known one, or the free value of the counter. -/
def Supply.head (free : Nat → α) (x : Supply α) : α :=
  match x.ahead with
  | [] => free x.drawn
  | a :: _ => a

/-- What is left after the next item has been taken. -/
def Supply.tail (x : Supply α) : Supply α :=
  match x.ahead with
  | [] => ⟨[], x.drawn + 1⟩
  | _ :: rest => ⟨rest, x.drawn⟩

/-- What `sample_clock()` returns next (00_scope.md R9). -/
def State.nextSample (s : State) : Word := s.samples.head Config.clock

/-- One call of `sample_clock()`: a separate sample each time (00_scope.md R9), left on the clock port. -/
def State.takeSample (s : State) : State :=
  { s with samples := s.samples.tail, clk := some s.nextSample }

/-- The move that comes next (log 3). -/
def State.nextMove (s : State) : Move := s.moves.head Config.move

/-- The state in which the next move is made: the move is taken, the ports are free again. -/
def State.takeMove (s : State) : State :=
  { s with moves := s.moves.tail, clk := none, rsp := none }

/-- `respond(st, r0, r1, r2, r3)`: the response goes to the requester whose request it answers, which then
has none outstanding (00_scope.md R9; 20_memory.md R45, R46). -/
def State.respondTo (r : RequesterId) (x : Response) (s : State) : State :=
  { s with pending := s.pending.erase r, rsp := some ⟨r, x⟩ }

/-- A completed operation of the requester the decoder is serving: status OK and its results. -/
def State.respondOk (r0 r1 r2 r3 : Word) (s : State) : State :=
  s.respondTo s.active ⟨.ok, r0, r1, r2, r3⟩

/-- An error response, the block's only exception: the status goes to the requester, all results are 0,
no register changes, and there is no handler to go to (60_exceptions.md R121, R122, R123, R126). -/
def State.raiseError (st : Status) (s : State) : State :=
  s.respondTo s.active (errorResponse st)

/-- The completion of a GEN_NEXT for requester `r`: steps 4 and 5 of 40_generator.md R82. LAST and SEQ are
written and PHASE becomes IDLE in one step, as one atomic unit (10_state.md R35, 20_memory.md R48). -/
def State.finishNext (r : RequesterId) (t : Word) (seq : SeqNo) (s : State) : State :=
  { s with last := t, seq := seq, phase := .idle }.respondTo r
    ⟨.ok, composeClassic t s.node (seq.setWidth 64), 0, 0, 0⟩

/-- Reset (10_state.md R36; 70_reset_and_hazards.md R140, R141): every register at its reset value, every
request discarded without a response. What comes from outside the block goes on (log 10). -/
def State.applyReset (s : State) : State :=
  { State.reset with samples := s.samples, moves := s.moves }

end Sys2Proof.Machine
end

