-- ==== Sys2Proof/Machine/Codec.lean ====
section
/-! DEFINITION. The codec unit: SEM_ENCODE, SEM_DECODE and SF_COMPOSE read only their operands and write
only their response (10_state.md R34), whatever the generator unit is doing (20_memory.md R47). -/

namespace Sys2Proof.Machine

/-- SEM_ENCODE (41_semantic_codec.md R100). -/
def execSemEncode (objectId nodeId typeId : Word) (s : State) : Host.Outcome State Fault Refusal :=
  .next (s.respondOk (packSemantic objectId nodeId typeId) 0 0 0)

/-- SEM_DECODE (41_semantic_codec.md R101). -/
def execSemDecode (id : Word) (s : State) : Host.Outcome State Fault Refusal :=
  .next (s.respondOk (semanticObject id) (semanticNode id) (semanticType id) (semanticGlobalType id))

/-- SF_COMPOSE (40_generator.md R80). -/
def execSfCompose (time nodeId sequence : Word) (s : State) : Host.Outcome State Fault Refusal :=
  .next (s.respondOk (composeClassic time nodeId sequence) 0 0 0)

end Sys2Proof.Machine
end

