-- ==== Sys2Proof/Machine/Generator.lean ====
section
/-! DEFINITION. The generator unit: GEN_INIT, GEN_NEXT, and the busy-wait of a GEN_NEXT whose sequence
wrapped. It accepts a request only while PHASE is IDLE (20_memory.md R48); until then the request waits,
and the step changes nothing (log 7). -/

namespace Sys2Proof.Machine

/-- GEN_INIT (40_generator.md R81): NODE takes all 64 bits, LAST and SEQ start afresh; EPOCH stays. It is
accepted and completed in one step (log 4). -/
def execGenInit (nodeId : Word) (s : State) : Host.Outcome State Fault Refusal :=
  match s.phase with
  | .busy _ _ _ => .next s
  | .idle => .next ({ s with node := nodeId, last := 0, seq := 0, initDone := true }.respondOk 0 0 0 0)

/-- The first clock sample of an accepted GEN_NEXT, steps 1 to 3 of 40_generator.md R82. The sequence
counter is 12 bits wide, so `+ 1` wraps; a wrap starts the busy-wait, and PHASE stays BUSY. -/
def State.allocate (s : State) : State :=
  if timeDelta s.nextSample s.epoch = s.last then
    if s.seq + 1 = 0 then
      { s.takeSample with phase := .busy s.active (timeDelta s.nextSample s.epoch) (s.seq + 1) }
    else s.takeSample.finishNext s.active (timeDelta s.nextSample s.epoch) (s.seq + 1)
  else s.takeSample.finishNext s.active (timeDelta s.nextSample s.epoch) 0

/-- GEN_NEXT (40_generator.md R82); before any GEN_INIT it answers UNINIT and takes no sample
(60_exceptions.md R122). -/
def execGenNext (s : State) : Host.Outcome State Fault Refusal :=
  match s.phase with
  | .busy _ _ _ => .next s
  | .idle => if s.initDone then .next s.allocate else .next (s.raiseError .uninit)

/-- One turn of the busy-wait `while t <=s LAST: t <- sample_clock() - EPOCH` (40_generator.md R82): one
sample a step (70_reset_and_hazards.md R150), and the operation completes when the loop ends. -/
def State.spinOnce (s : State) : State :=
  match s.phase with
  | .idle => s
  | .busy r t seq =>
    if lesSigned t s.last then
      if lesSigned (timeDelta s.nextSample s.epoch) s.last then
        { s.takeSample with phase := .busy r (timeDelta s.nextSample s.epoch) seq }
      else s.takeSample.finishNext r (timeDelta s.nextSample s.epoch) seq
    else s.finishNext r t seq

end Sys2Proof.Machine
end

