-- ==== Sys2Proof/Machine/Dispatch.lean ====
section
/-! DEFINITION. From an instruction to its meaning, one arm per constructor. The ignored operands of
30_encoding.md R62 do not reach a meaning. -/

namespace Sys2Proof.Machine

def exec (i : Instr) (s : State) : Host.Outcome State Fault Refusal :=
  match i with
  | .semEncode a b c => Sys2Proof.Machine.execSemEncode a b c s
  | .semDecode a _ _ => Sys2Proof.Machine.execSemDecode a s
  | .sfCompose a b c => Sys2Proof.Machine.execSfCompose a b c s
  | .genInit a _ _ => Sys2Proof.Machine.execGenInit a s
  | .genNext _ _ _ => Sys2Proof.Machine.execGenNext s

end Sys2Proof.Machine
end

