-- ==== Sys2Proof/Machine/Moves.lean ====
section
/-! DEFINITION. What each agent's move does: a requester issuing, the request decoder serving, the
generator unit spinning, reset. -/

namespace Sys2Proof.Machine

/-- A requester issues a request (20_memory.md R40, R46). The environment is assumed to give a requester no
second request while it has one outstanding (R57), and there are N_REQUESTERS of them (00_scope.md R6). -/
def issue (r : RequesterId) (q : Request) (s : State) : Host.Outcome State Fault Refusal :=
  if r < Config.nRequesters then
    match s.pending.find r with
    | some _ => .fault (.secondRequest r)
    | none => .next { s with pending := s.pending.insert r q }
  else .fault (.noSuchRequester r)

/-- The request decoder takes requester `r`'s outstanding request: an illegal code it answers itself, before
either unit and waiting for neither (60_exceptions.md R121, R124); a legal one it hands to its unit. If the
requester has none outstanding nothing happens (log 7). -/
def serve (r : RequesterId) (s : State) : Host.Outcome State Fault Refusal :=
  match s.pending.find r with
  | none => .next s
  | some q =>
    match decode q with
    | .error (.illegalOp _) => .next ({ s with active := r }.raiseError .illegalOp)
    | .ok i => exec i { s with active := r }

/-- One move of one agent. -/
def performMove (m : Move) (s : State) : Host.Outcome State Fault Refusal :=
  match m with
  | .issue r q => issue r q s
  | .serve r => serve r s
  | .spin => .next s.spinOnce
  | .reset => .next s.applyReset

/-- PHASE as the acceptance of the request `q` of requester 0 needs it: the generator unit is free for a
generator request, and requester 0, having one outstanding, owns no operation in flight. -/
def phaseForRequest (q : Request) (p : Phase) : Phase :=
  match p with
  | .idle => .idle
  | .busy r t seq => if q.unit = .generator ∨ r = 0 then .idle else .busy r t seq

/-- `s` with the request `q` outstanding for requester 0 and the decoder about to take it: what a
requester's issuing `q` leads to (log 13). -/
def State.presentRequest (q : Request) (s : State) : State :=
  { s with
    phase := phaseForRequest q s.phase
    pending := s.pending.insert 0 q
    moves := ⟨.serve 0 :: s.moves.ahead, s.moves.drawn⟩ }

end Sys2Proof.Machine
end

