-- ==== Sys2Proof/Machine/Step.lean ====
section
/-! DEFINITION. One step of the machine, and the placing of a request so that the next step runs it. -/

namespace Sys2Proof.Machine

/-- One step: the next move is taken and made (20_memory.md R56; log 1). -/
def step (s : State) : Host.Outcome State Fault Refusal := performMove s.nextMove s.takeMove

/-- `s` with the request of a word in the opcode table's numbering presented by requester 0, so that the
next step serves it (log 12, log 13). -/
def State.withFetchWord (s : State) (nbits w : Nat) : State :=
  s.presentRequest (Request.ofTableWord nbits w)

end Sys2Proof.Machine
end

