-- ==== Sys2Proof/Machine/Assembler.lean ====
section
/-! DEFINITION. The spec's assembler syntax for a request and its notation of a response
(30_encoding.md R73). Texts are lists of characters. White space, and the base in which a result is
written, are DESIGN CHOICE (safe: a notation only): log 15. -/

namespace Sys2Proof.Machine

/-- The mnemonics and how many operands each writes (30_encoding.md R73). -/
def Op.mnemonic : Op → List Char × Nat
  | .semEncode => (['S', 'E', 'M', '_', 'E', 'N', 'C', 'O', 'D', 'E'], 3)
  | .semDecode => (['S', 'E', 'M', '_', 'D', 'E', 'C', 'O', 'D', 'E'], 1)
  | .sfCompose => (['S', 'F', '_', 'C', 'O', 'M', 'P', 'O', 'S', 'E'], 3)
  | .genInit => (['G', 'E', 'N', '_', 'I', 'N', 'I', 'T'], 1)
  | .genNext => (['G', 'E', 'N', '_', 'N', 'E', 'X', 'T'], 0)

/-- The value of a digit character in a base up to 16. -/
def digitValue (base : Nat) (ch : Char) : Option Nat :=
  let n := ch.toNat
  let v := if 48 ≤ n ∧ n ≤ 57 then n - 48 else if 65 ≤ n ∧ n ≤ 70 then n - 55
    else if 97 ≤ n ∧ n ≤ 102 then n - 87 else 16
  if v < base then some v else none

/-- The number the digits of a base write, after `acc`. -/
def digitsValue (base acc : Nat) : List Char → Option Nat
  | [] => some acc
  | ch :: rest =>
    match digitValue base ch with
    | some v => digitsValue base (acc * base + v) rest
    | none => none

/-- A decimal or `0x` hexadecimal numeral that fits 64 bits. -/
def numeral (text : List Char) : Option Word :=
  let value := match text with
    | [] => none
    | ['0', 'x'] => none
    | '0' :: 'x' :: digits => digitsValue 16 0 digits
    | digits => digitsValue 10 0 digits
  match value with
  | some v => if v < 2 ^ 64 then some (.ofNat 64 v) else none
  | none => none

/-- The parts of a text between commas. -/
def splitCommas : List Char → List (List Char)
  | [] => [[]]
  | ',' :: rest => [] :: splitCommas rest
  | ch :: rest =>
    match splitCommas rest with
    | [] => [[ch]]
    | part :: parts => (ch :: part) :: parts

/-- A text without the spaces at its ends. -/
def trim (text : List Char) : List Char :=
  ((text.dropWhile (· == ' ')).reverse.dropWhile (· == ' ')).reverse

/-- The operands of a line, none where one is no numeral. -/
def operands (text : List Char) : Option (List Word) :=
  if trim text = [] then some [] else (splitCommas text).mapM fun part => numeral (trim part)

/-- The request a line of assembler writes: the mnemonic, then at most its operands in the order A, B, C;
omitted operands are 0 (30_encoding.md R73). -/
def assemble (line : List Char) : Option Request :=
  let text := trim line
  let name := text.takeWhile (· != ' ')
  match [Op.semEncode, .semDecode, .sfCompose, .genInit, .genNext].find? fun o => (Op.mnemonic o).1 == name with
  | none => none
  | some o =>
    match operands (text.drop name.length) with
    | none => none
    | some xs =>
      if xs.length ≤ (Op.mnemonic o).2 then some ⟨o.code, xs.getD 0 0, xs.getD 1 0, xs.getD 2 0⟩ else none

/-- The hexadecimal digits of the low `n` digits' worth of a number, least significant first, without
leading zeros. -/
def hexDigits : Nat → Nat → List Char
  | 0, _ => []
  | n + 1, v =>
    if v = 0 then []
    else (if v % 16 < 10 then Char.ofNat (48 + v % 16) else Char.ofNat (55 + v % 16)) :: hexDigits n (v / 16)

/-- One result of a response line, omitted when 0. -/
def resultText (name : List Char) (v : Word) : List Char :=
  if v = 0 then [] else ' ' :: name ++ ['=', '0', 'x'] ++ (hexDigits 16 v.toNat).reverse

/-- A status's name (30_encoding.md R66). -/
def Status.text : Status → List Char
  | .ok => ['O', 'K']
  | .illegalOp => ['I', 'L', 'L', 'E', 'G', 'A', 'L', '_', 'O', 'P']
  | .uninit => ['U', 'N', 'I', 'N', 'I', 'T']

/-- A response as a line writes it: `-> ST=<name> R0=<v> R1=<v> R2=<v> R3=<v>`, results 0 omitted
(30_encoding.md R73). -/
def Response.text (x : Response) : List Char :=
  ['-', '>', ' ', 'S', 'T', '='] ++ Status.text x.st ++ resultText ['R', '0'] x.r0 ++
    resultText ['R', '1'] x.r1 ++ resultText ['R', '2'] x.r2 ++ resultText ['R', '3'] x.r3

end Sys2Proof.Machine
end

