-- ==== Sys2Proof/Safety.lean ====
section
/-! DEFINITION. The terms claims are stated in: the invariant of the state, runs and what they show at the
ports, error responses as faults of a program, and the source's own conventions about identifiers, which
the block neither computes nor enforces. -/

namespace Sys2Proof

open Machine

/-- The request of a GEN_NEXT: decoding is by OP alone (30_encoding.md R64). -/
def Request.isGenNext (q : Request) : Bool := q.op == Op.genNext.code

/-- The request of a GEN_INIT. -/
def Request.isGenInit (q : Request) : Bool := q.op == Op.genInit.code

/-- What holds of the state at reset and after every step. -/
structure Machine.State.Inv (s : State) : Prop where
  /-- The outstanding requests are in canonical form: at most one a requester (20_memory.md R46). -/
  pendingWf : s.pending.wf
  /-- Only requesters of the block have one outstanding (00_scope.md R6). -/
  requesters : ∀ p ∈ s.pending, p.1 < Config.nRequesters
  /-- EPOCH is the parameter always (10_state.md R23). -/
  epochFixed : s.epoch = Config.epochMs
  /-- Before the first GEN_INIT the generator registers hold their reset values (10_state.md R27, R36). -/
  untouched : s.initDone = false → s.node = 0 ∧ s.last = 0 ∧ s.seq = 0
  /-- PHASE is BUSY between steps only for a GEN_NEXT in its busy-wait: its requester still waits for the
  response, the sequence is spent, and the last sample is not above LAST (40_generator.md R82). DEDUCED (safe):
  log 4; 10_state.md R28 has PHASE BUSY from the acceptance of a GEN_INIT too. -/
  spinning : ∀ r t seq, s.phase = .busy r t seq →
    s.initDone = true ∧ s.seq = 4095 ∧ seq = 0 ∧ t.toInt ≤ s.last.toInt ∧
      ∃ q, s.pending.find r = some q ∧ q.isGenNext = true

/-- Every step of the run of `k` steps from `s` leads to a next state and satisfies `P`. -/
def AlongRun (P : State → State → Prop) : Nat → State → Prop
  | 0, _ => True
  | k + 1, s => ∃ t, step s = .next t ∧ P s t ∧ AlongRun P k t

/-- What the first `k` steps from `s` show, step by step, up to a stop. -/
def traceOf {α : Type} (f : State → State → Option α) : Nat → State → List α
  | 0, _ => []
  | k + 1, s =>
    match step s with
    | .next t => (f s t).toList ++ traceOf f k t
    | .fault _ => []
    | .refused _ => []

/-- The request a step answered and the response it got (20_memory.md R45). -/
def answered (s t : State) : Option (Request × Response) :=
  match t.rsp with
  | none => none
  | some d => (s.pending.find d.dest).map fun q => (q, d.response)

/-- The identifier a step returned for a GEN_NEXT, if it did. -/
def allocated (s t : State) : Option Word :=
  match answered s t with
  | some (q, ⟨.ok, id, _, _, _⟩) => if q.isGenNext then some id else none
  | _ => none

/-- The clock samples the first `k` steps take (20_memory.md R56). -/
def samplesTaken (k : Nat) (s : State) : List Word := traceOf (fun _ t => t.clk) k s

/-- The responses the first `k` steps deliver. -/
def deliveries (k : Nat) (s : State) : List Delivery := traceOf (fun _ t => t.rsp) k s

/-- The identifiers the GEN_NEXTs completing in the first `k` steps return, in their order. -/
def allocations (k : Nat) (s : State) : List Word := traceOf allocated k s

/-- The step is no reset. -/
def NoReset (s _t : State) : Prop := s.nextMove ≠ .reset

/-- The step neither resets the generator nor starts it afresh (the premise of 40_generator.md R89). -/
def NoRestart (s t : State) : Prop :=
  NoReset s t ∧ ∀ q x, answered s t = some (q, x) → q.isGenInit = false

/-- A run has ended when no request is outstanding (20_memory.md R56). R56 asks that every accepted request has
received its response and does not speak of requests that reset discarded. DESIGN CHOICE (unsafe): a discarded
request does not keep a run from having ended (log 17). -/
def RunEnded (s : State) : Prop := s.pending = []

/-- The faults a program can commit: what 60_exceptions.md R122 and 93_implementation_defined.md U12 and
U13 have a model record for an error response. The machine itself goes on (log 16). -/
inductive ProgramFault where
  | illegalOp (r : RequesterId)
  | uninit (r : RequesterId)
deriving DecidableEq, Repr

/-- The program fault a delivered response records. -/
def Machine.Delivery.programFault (d : Delivery) : Option ProgramFault :=
  match d.response.st with
  | .ok => none
  | .illegalOp => some (.illegalOp d.dest)
  | .uninit => some (.uninit d.dest)

/-- The program faults of the first `k` steps. -/
def programFaults (k : Nat) (s : State) : List ProgramFault :=
  traceOf (fun _ t => t.rsp.bind Delivery.programFault) k s

/-- A safe run: no step stops, and no program commits a fault. -/
def SafeRun (k : Nat) (s : State) : Prop := AlongRun (fun _ _ => True) k s ∧ programFaults k s = []

/-- The time field of an identifier under the classic layout (30_encoding.md R67). The block has no
classic decoder (00_scope.md R4). -/
def classicTime (id : Word) : BitVec 41 := id.extractLsb' 22 41

/-- The node field of an identifier under the classic layout (30_encoding.md R67). -/
def classicNode (id : Word) : BitVec 10 := id.extractLsb' 12 10

/-- The sequence field of an identifier under the classic layout (30_encoding.md R67). -/
def classicSequence (id : Word) : BitVec 12 := id.extractLsb' 0 12

/-- The source's validity predicate, which the block does not compute (30_encoding.md R71). -/
def validId (id : Word) : Bool := !id.getLsbD 63

/-- The source's range of global type IDs, which the block does not enforce (30_encoding.md R72). -/
def inGlobalTypeRange (id : Word) : Bool :=
  decide (1025 ≤ (semanticGlobalType id).toNat ∧ (semanticGlobalType id).toNat ≤ 8388607)

/-- The busy-wait on a list of samples: the first time delta above LAST, and how many samples it took. -/
def waitPast (last epoch : Word) : List Word → Option (Word × Nat)
  | [] => none
  | x :: rest =>
    if last.toInt < (x - epoch).toInt then some (x - epoch, 1)
    else (waitPast last epoch rest).map fun (t, n) => (t, n + 1)

/-- GEN_NEXT as the pseudocode of 40_generator.md R82 reads on its own: from LAST, SEQ, EPOCH and the
samples the clock returns, the time delta and the sequence number it uses, and how many samples it takes. -/
def allocateFrom (last : Word) (seq : SeqNo) (epoch : Word) : List Word → Option (Word × SeqNo × Nat)
  | [] => none
  | x :: rest =>
    if x - epoch = last then
      if seq.toNat = 4095 then (waitPast last epoch rest).map fun (t, n) => (t, 0, n + 1)
      else some (last, seq + 1, 1)
    else some (x - epoch, 0, 1)

end Sys2Proof
end

