-- ==== Sys2Proof/Certificates/Slice0/Obligations.lean ====
section
/-! DEFINITION. The statements about the model, in the order of OBLIGATIONS.json. -/

open Sys2Proof Sys2Proof.Machine

/-! ### The codec operations and SF_COMPOSE -/

/-- 41_semantic_codec.md R100 (decisions D4, D5): SEM_ENCODE completes in every state and for every operand
with the identifier of the formula, and changes nothing but the response and what it answers. -/
def Obligations.SemEncodePacksTheTriple : Prop :=
  ∀ (a b c : Word) (s : State),
    decode ⟨0x0, a, b, c⟩ = .ok (.semEncode a b c) ∧
    exec (.semEncode a b c) s =
      .next { s with
        pending := s.pending.erase s.active
        rsp := some ⟨s.active, .ok,
          a <<< 23 ||| BitVec.ofNat 64 (b.toNat % 2 ^ 13) <<< 10 ||| BitVec.ofNat 64 (c.toNat % 2 ^ 10), 0, 0, 0⟩ }

/-- What 41_semantic_codec.md derives of SEM_ENCODE ("Equivalently"): the identifier is the three fields
A[40:0], B[12:0] and C[9:0] side by side. -/
def Obligations.EncodedFieldsStandSideBySide : Prop :=
  ∀ (a b c : Word) (s : State), ∃ (t : State) (id : Word),
    exec (.semEncode a b c) s = .next t ∧ t.rsp = some ⟨s.active, .ok, id, 0, 0, 0⟩ ∧
    id = a.extractLsb' 0 41 ++ b.extractLsb' 0 13 ++ c.extractLsb' 0 10

/-- 41_semantic_codec.md R101 (decision D3): SEM_DECODE completes in every state with the four results of the
formulas, which are A[63:23], A[22:10], A[9:0] and A[22:0] zero-extended, and changes nothing but the response
and what it answers. B and C are ignored. -/
def Obligations.SemDecodeUnpacksTheIdentifier : Prop :=
  ∀ (a b c : Word) (s : State),
    decode ⟨0x1, a, b, c⟩ = .ok (.semDecode a b c) ∧
    exec (.semDecode a b c) s =
      .next { s with
        pending := s.pending.erase s.active
        rsp := some ⟨s.active, .ok, a >>> 23, (a <<< 41) >>> 51, a &&& 0x3FF, a &&& 0x7FFFFF⟩ } ∧
    a >>> 23 = (a.extractLsb' 23 41).setWidth 64 ∧
    (a <<< 41) >>> 51 = (a.extractLsb' 10 13).setWidth 64 ∧
    a &&& 0x3FF = (a.extractLsb' 0 10).setWidth 64 ∧
    a &&& 0x7FFFFF = (a.extractLsb' 0 23).setWidth 64

/-- The hazard of 70_reset_and_hazards.md ("Layout-mixing hazard"): a classic identifier of in-range fields and a
semantic identifier of in-range fields can be equal. -/
def Obligations.ClassicAndSemanticIdentifiersCanBeEqual : Prop :=
  ∃ (t n q a b c id : Word) (s u : State),
    0 < t.toNat ∧ t.toNat < 2 ^ 41 ∧ n.toNat < 1024 ∧ q.toNat < 4096 ∧
    a.toNat < 2 ^ 41 ∧ 0 < b.toNat ∧ b.toNat < 8192 ∧ c.toNat < 1024 ∧
    exec (.sfCompose t n q) s = .next u ∧ exec (.semEncode a b c) s = .next u ∧
    u.rsp = some ⟨s.active, .ok, id, 0, 0, 0⟩

/-- 40_generator.md R80 (decisions D5, D24): SF_COMPOSE completes in every state and for every operand with the
formula's value, no operand masked, and changes nothing but the response and what it answers. -/
def Obligations.SfComposeComposesWithoutMasks : Prop :=
  ∀ (a b c : Word) (s : State),
    decode ⟨0x2, a, b, c⟩ = .ok (.sfCompose a b c) ∧
    exec (.sfCompose a b c) s =
      .next { s with
        pending := s.pending.erase s.active
        rsp := some ⟨s.active, .ok, a <<< 22 ||| b <<< 12 ||| c, 0, 0, 0⟩ }

/-- 20_memory.md R47 and 10_state.md R34 (decision D18): a codec request that the decoder takes is answered OK in that very step, in any state
of the generator, its busy-wait included; the response depends on the instruction alone, and no register
changes. -/
def Obligations.CodecNeverWaitsAndHasNoSideEffect : Prop :=
  ∀ i : Instr, i.op.unit = .codec → ∃ x : Response, x.st = .ok ∧
    ∀ (s : State) (r : RequesterId) (q : Request),
      s.nextMove = .serve r → s.pending.find r = some q → decode q = .ok i →
      step s = .next { s with
        moves := s.moves.tail
        clk := none
        active := r
        pending := s.pending.erase r
        rsp := some ⟨r, x⟩ }

/-- What 41_semantic_codec.md derives from its two operations ("Round trip through encode then decode"): the
results of SEM_DECODE on a SEM_ENCODE's identifier. -/
def Obligations.DecodingAnEncodedTripleReducesIt : Prop :=
  ∀ (a b c : Word) (s : State), ∃ (id : Word) (t u : State) (o n ty g : Word),
    exec (.semEncode a b c) s = .next t ∧ t.rsp = some ⟨s.active, .ok, id, 0, 0, 0⟩ ∧
    exec (.semDecode id 0 0) t = .next u ∧ u.rsp = some ⟨s.active, .ok, o, n, ty, g⟩ ∧
    o.toNat = a.toNat % 2 ^ 41 ∧ n.toNat = b.toNat % 8192 ∧ ty.toNat = c.toNat % 1024 ∧
    g.toNat = b.toNat % 8192 * 1024 + c.toNat % 1024

/-- What 41_semantic_codec.md derives ("Round trip through decode then encode"): every identifier comes back
from its decoded fields. -/
def Obligations.EncodingADecodedIdentifierRestoresIt : Prop :=
  ∀ (id b c : Word) (s : State), ∃ (t u : State) (o n ty g : Word),
    exec (.semDecode id b c) s = .next t ∧ t.rsp = some ⟨s.active, .ok, o, n, ty, g⟩ ∧
    exec (.semEncode o n ty) t = .next u ∧ u.rsp = some ⟨s.active, .ok, id, 0, 0, 0⟩

/-- What 41_semantic_codec.md derives ("Aliasing by the clamp"): two triples get one identifier exactly when
they agree modulo the field widths. -/
def Obligations.TriplesAliasExactlyModuloTheWidths : Prop :=
  ∀ (a b c a' b' c' : Word) (s : State), ∃ (t t' : State) (id id' : Word),
    exec (.semEncode a b c) s = .next t ∧ t.rsp = some ⟨s.active, .ok, id, 0, 0, 0⟩ ∧
    exec (.semEncode a' b' c') s = .next t' ∧ t'.rsp = some ⟨s.active, .ok, id', 0, 0, 0⟩ ∧
    (id = id' ↔ a.toNat % 2 ^ 41 = a'.toNat % 2 ^ 41 ∧ b.toNat % 8192 = b'.toNat % 8192 ∧
      c.toNat % 1024 = c'.toNat % 1024)

/-- What 41_semantic_codec.md derives of the global type ID: SEM_DECODE's R3 is R1 * 1024 + R2. -/
def Obligations.GlobalTypeIdJoinsNodeAndType : Prop :=
  ∀ (id b c : Word) (s : State), ∃ (t : State) (o n ty g : Word),
    exec (.semDecode id b c) s = .next t ∧ t.rsp = some ⟨s.active, .ok, o, n, ty, g⟩ ∧
    g.toNat = n.toNat * 1024 + ty.toNat

/-- What 41_semantic_codec.md derives of the global type ID: encoding `g >> 10` and `g & 0x3FF` as node and
type places `g` in bits 22:0. -/
def Obligations.EncodingPlacesAGlobalTypeId : Prop :=
  ∀ (a g : Word) (s : State), g.toNat < 2 ^ 23 → ∃ (t : State) (id : Word),
    exec (.semEncode a (g >>> 10) (g &&& 0x3FF)) s = .next t ∧
    t.rsp = some ⟨s.active, .ok, id, 0, 0, 0⟩ ∧
    id.toNat % 2 ^ 23 = g.toNat ∧ semanticGlobalType id = g ∧ semanticObject id = a &&& 0x1FFFFFFFFFF

/-- What 30_encoding.md derives of the semantic layout: bit 63 of a SEM_ENCODE's identifier is bit 40 of the
object ID, so the source's validity predicate fails exactly then. -/
def Obligations.SemanticSignBitIsObjectBit40 : Prop :=
  ∀ (a b c : Word) (s : State), ∃ (t : State) (id : Word),
    exec (.semEncode a b c) s = .next t ∧ t.rsp = some ⟨s.active, .ok, id, 0, 0, 0⟩ ∧
    id.getLsbD 63 = a.getLsbD 40 ∧ (validId id = false ↔ 2 ^ 40 ≤ a.toNat % 2 ^ 41)

/-- What 30_encoding.md derives of the two layouts: how the fields of one 64-bit value overlap. -/
def Obligations.ClassicAndSemanticFieldsOverlap : Prop :=
  ∀ id : Word,
    semanticNode id =
      ((classicTime id).extractLsb' 0 1 ++ classicNode id ++ (classicSequence id).extractLsb' 10 2).setWidth 64 ∧
    semanticType id = ((classicSequence id).extractLsb' 0 10).setWidth 64 ∧
    semanticObject id = (id.extractLsb' 63 1 ++ (classicTime id).extractLsb' 1 40).setWidth 64

/-- 30_encoding.md, "Identifier layouts", and what 40_generator.md derives from it: SF_COMPOSE of in-range
operands is in the classic layout, field by field, and is `t * 2^22 + n * 2^12 + s`. -/
def Obligations.ComposedFieldsReadBack : Prop :=
  ∀ (t n q : Word) (s : State), t.toNat < 2 ^ 41 → n.toNat < 1024 → q.toNat < 4096 →
    ∃ (u : State) (id : Word),
      exec (.sfCompose t n q) s = .next u ∧ u.rsp = some ⟨s.active, .ok, id, 0, 0, 0⟩ ∧
      id.toNat = t.toNat * 2 ^ 22 + n.toNat * 2 ^ 12 + q.toNat ∧
      id.getLsbD 63 = false ∧ (classicTime id).toNat = t.toNat ∧ (classicNode id).toNat = n.toNat ∧
      (classicSequence id).toNat = q.toNat

/-- What 40_generator.md derives of time deltas that do not fit 41 bits, negative ones among them: with node
and sequence in range, bits 63:22 are the low 42 bits of the time delta, whatever it is. -/
def Obligations.ComposeKeeps42TimeBits : Prop :=
  ∀ (t n q : Word) (s : State), n.toNat < 1024 → q.toNat < 4096 →
    ∃ (u : State) (id : Word),
      exec (.sfCompose t n q) s = .next u ∧ u.rsp = some ⟨s.active, .ok, id, 0, 0, 0⟩ ∧
      id.extractLsb' 22 42 = t.extractLsb' 0 42 ∧ (classicNode id).toNat = n.toNat ∧
      (classicSequence id).toNat = q.toNat

/-- What 40_generator.md derives of a node ID of 1024 or more: its bits from 10 up are ORed into the time
field, so the identifier is that of another time and a node in range. -/
def Obligations.WideNodeIdSpillsIntoTheTime : Prop :=
  ∀ (t n q : Word) (s : State), ∃ (u : State) (id : Word),
    exec (.sfCompose t n q) s = .next u ∧ u.rsp = some ⟨s.active, .ok, id, 0, 0, 0⟩ ∧
    exec (.sfCompose (t ||| n >>> 10) (n &&& 0x3FF) q) s = .next u

/-! ### The generator operations -/

/-- 40_generator.md, "GEN_INIT: construct the generator": a GEN_INIT that finds the generator unit free writes
NODE, LAST, SEQ and INIT_DONE and nothing else, answers OK with results 0, and ignores B and C. In the model it
is accepted and completes in one step (log 4). -/
def Obligations.GenInitStartsTheGeneratorAfresh : Prop :=
  ∀ (a b c : Word) (s : State), s.phase = .idle →
    decode ⟨0x8, a, b, c⟩ = .ok (.genInit a b c) ∧
    exec (.genInit a b c) s =
      .next { s with
        node := a
        last := 0
        seq := 0
        initDone := true
        pending := s.pending.erase s.active
        rsp := some ⟨s.active, .ok, 0, 0, 0, 0⟩ }

/-- 20_memory.md, "Transactions, atomicity and side effects": while PHASE is BUSY the generator unit accepts
no generator request; the request waits, and in the model that step changes nothing (log 7). -/
def Obligations.GeneratorRequestsWaitWhileBusy : Prop :=
  ∀ (a b c : Word) (s : State) (r : RequesterId) (u : Word) (n : SeqNo), s.phase = .busy r u n →
    exec (.genInit a b c) s = .next s ∧ exec (.genNext a b c) s = .next s

/-- 60_exceptions.md R122 (decision D11): a GEN_NEXT accepted while INIT_DONE = 0 answers UNINIT with results 0;
it samples no clock and writes no register, PHASE is IDLE, and the response records a fault of its program. -/
def Obligations.GenNextBeforeInitAnswersUninit : Prop :=
  ∀ (a b c : Word) (s : State), s.phase = .idle → s.initDone = false →
    exec (.genNext a b c) s =
      .next { s with
        pending := s.pending.erase s.active
        rsp := some ⟨s.active, .uninit, 0, 0, 0, 0⟩ } ∧
    (Delivery.mk s.active ⟨.uninit, 0, 0, 0, 0⟩).programFault = some (.uninit s.active)

/-- 40_generator.md, "GEN_NEXT: allocate the next identifier", step 3: a first sample whose time delta differs
from LAST, forward or backward, completes GEN_NEXT with sequence 0. It holds for every sample. -/
def Obligations.GenNextOnAnotherMillisecond : Prop :=
  ∀ (a b c : Word) (s : State), s.phase = .idle → s.initDone = true → s.nextSample - s.epoch ≠ s.last →
    exec (.genNext a b c) s =
      .next { s with
        last := s.nextSample - s.epoch
        seq := 0
        samples := s.samples.tail
        clk := some s.nextSample
        pending := s.pending.erase s.active
        rsp := some ⟨s.active, .ok, (s.nextSample - s.epoch) <<< 22 ||| s.node <<< 12, 0, 0, 0⟩ }

/-- 40_generator.md, "GEN_NEXT: allocate the next identifier", step 2 without a wrap: a first sample whose
time delta equals LAST completes GEN_NEXT with the next sequence number. -/
def Obligations.GenNextInTheSameMillisecond : Prop :=
  ∀ (a b c : Word) (s : State), s.phase = .idle → s.initDone = true → s.nextSample - s.epoch = s.last →
    s.seq.toNat < 4095 →
    exec (.genNext a b c) s =
      .next { s with
        seq := s.seq + 1
        samples := s.samples.tail
        clk := some s.nextSample
        pending := s.pending.erase s.active
        rsp := some ⟨s.active, .ok, s.last <<< 22 ||| s.node <<< 12 ||| (s.seq + 1).setWidth 64, 0, 0, 0⟩ }

/-- 40_generator.md, "GEN_NEXT: allocate the next identifier", step 2 with a wrap: GEN_NEXT begins its
busy-wait. PHASE is BUSY, LAST and SEQ are not written, and there is no response yet. -/
def Obligations.GenNextWaitsWhenTheSequenceIsSpent : Prop :=
  ∀ (a b c : Word) (s : State), s.phase = .idle → s.initDone = true → s.nextSample - s.epoch = s.last →
    s.seq.toNat = 4095 →
    exec (.genNext a b c) s =
      .next { s with
        phase := .busy s.active s.last 0
        samples := s.samples.tail
        clk := some s.nextSample }

/-- 40_generator.md, "GEN_NEXT: allocate the next identifier", one turn of the busy-wait: a sample at or
below LAST, read as signed, prolongs it and publishes nothing; a sample above LAST completes the GEN_NEXT of
the waiting requester with sequence 0. -/
def Obligations.BusyWaitEndsAboveLast : Prop :=
  ∀ (s : State) (r : RequesterId) (u : Word), s.nextMove = .spin → s.phase = .busy r u 0 →
    u.toInt ≤ s.last.toInt →
    ((s.nextSample - s.epoch).toInt ≤ s.last.toInt →
      step s = .next { s with
        phase := .busy r (s.nextSample - s.epoch) 0
        samples := s.samples.tail
        moves := s.moves.tail
        clk := some s.nextSample
        rsp := none }) ∧
    (s.last.toInt < (s.nextSample - s.epoch).toInt →
      step s = .next { s with
        last := s.nextSample - s.epoch
        seq := 0
        phase := .idle
        samples := s.samples.tail
        moves := s.moves.tail
        clk := some s.nextSample
        pending := s.pending.erase r
        rsp := some ⟨r, .ok, (s.nextSample - s.epoch) <<< 22 ||| s.node <<< 12, 0, 0, 0⟩ })

/-- 40_generator.md R82 (decisions D14, D15, D16): a GEN_NEXT taken by the decoder while the generator unit is free answers UNINIT when
INIT_DONE = 0, and otherwise, the unit then taking one sample a step, runs as the pseudocode does on the
samples the clock returns: as many samples, the values of LAST and SEQ, the identifier, PHASE BUSY and the
registers unwritten until then. `allocateFrom` is the pseudocode as a function of the samples. -/
def Obligations.GenNextRunsAsItsPseudocode : Prop :=
  ∀ (s : State) (r : RequesterId) (q : Request), q.op = 0x9 → s.pending.find r = some q →
    s.phase = .idle →
    (s.initDone = false → s.nextMove = .serve r →
      step s = .next { s with
        active := r
        moves := s.moves.tail
        clk := none
        pending := s.pending.erase r
        rsp := some ⟨r, .uninit, 0, 0, 0, 0⟩ }) ∧
    (s.initDone = true →
      ∀ (t : Word) (seq : SeqNo) (n : Nat) (later : List Move),
        allocateFrom s.last s.seq s.epoch s.samples.ahead = some (t, seq, n) →
        s.moves.ahead = .serve r :: (List.replicate (n - 1) .spin ++ later) →
        (∃ x : Word,
          (s.samples.ahead.take n).getLast? = some x ∧
          core.run n s = .next { s with
            last := t
            seq := seq
            phase := .idle
            active := r
            samples := ⟨s.samples.ahead.drop n, s.samples.drawn⟩
            moves := ⟨later, s.moves.drawn⟩
            clk := some x
            pending := s.pending.erase r
            rsp := some ⟨r, .ok, t <<< 22 ||| s.node <<< 12 ||| seq.setWidth 64, 0, 0, 0⟩ }) ∧
        ∀ m, 0 < m → m < n → ∃ (w : State) (u : Word),
          core.run m s = .next w ∧ w.phase = .busy r u 0 ∧ w.rsp = none ∧ w.pending = s.pending ∧
          w.epoch = s.epoch ∧ w.node = s.node ∧ w.last = s.last ∧ w.seq = s.seq ∧ w.initDone = true)

/-- What 60_exceptions.md derives of the busy-wait: along any run without a reset, whatever the other agents
do, the spinning GEN_NEXT is answered if and only if some sample taken gives a time delta above LAST. -/
def Obligations.BusyWaitCompletesIffTheClockPassesLast : Prop :=
  ∀ (k : Nat) (s : State) (r : RequesterId) (u : Word) (n : SeqNo) (q : Request),
    s.phase = .busy r u n → u.toInt ≤ s.last.toInt → s.pending.find r = some q → q.op = 0x9 →
    AlongRun NoReset k s →
    ((∃ d ∈ deliveries k s, d.dest = r) ↔
      ∃ x ∈ samplesTaken k s, s.last.toInt < (x - s.epoch).toInt)

/-- What 40_generator.md derives of the first GEN_NEXT after a GEN_INIT (LAST = 0, SEQ = 0): a time delta of 0
yields sequence 1, any other yields sequence 0. -/
def Obligations.FirstAllocationAfterInit : Prop :=
  ∀ (nodeId b c : Word) (s : State), s.phase = .idle → ∃ t : State,
    exec (.genInit nodeId b c) s = .next t ∧
    (t.nextSample = t.epoch → ∃ u, exec (.genNext 0 0 0) t = .next u ∧
      u.rsp = some ⟨s.active, .ok, nodeId <<< 12 ||| 1, 0, 0, 0⟩ ∧ u.last = 0 ∧ u.seq = 1) ∧
    (t.nextSample ≠ t.epoch → ∃ u, exec (.genNext 0 0 0) t = .next u ∧
      u.rsp = some ⟨s.active, .ok, (t.nextSample - t.epoch) <<< 22 ||| nodeId <<< 12, 0, 0, 0⟩ ∧
      u.last = t.nextSample - t.epoch ∧ u.seq = 0)

/-- What 20_memory.md derives of GEN_NEXT, which is not idempotent: every step that returns an identifier
changes LAST or SEQ. -/
def Obligations.EveryAllocationChangesLastOrSeq : Prop :=
  ∀ (s t : State) (id : Word), step s = .next t → allocated s t = some id →
    t.last ≠ s.last ∨ t.seq ≠ s.seq

/-- What 40_generator.md derives of one millisecond: as long as LAST does not change and nothing starts the
generator afresh, the identifiers returned carry that time delta and the sequence numbers SEQ + 1, SEQ + 2,
…, none above 4095; so at most 4096 share a time delta. -/
def Obligations.OneMillisecondGivesAtMost4096 : Prop :=
  ∀ (k : Nat) (s : State), AlongRun (fun s t => NoRestart s t ∧ t.last = s.last) k s →
    s.seq.toNat + (allocations k s).length ≤ 4095 ∧
    allocations k s = (List.range (allocations k s).length).map fun j =>
      s.last <<< 22 ||| s.node <<< 12 ||| BitVec.ofNat 64 (s.seq.toNat + 1 + j)

/-- What 40_generator.md derives as "Uniqueness and order": after a GEN_INIT (LAST = 0, SEQ = 0, the unit
free), with a node ID below 1024, time deltas below 2^41 that never go backward, and no reset and no GEN_INIT
in between, the identifiers returned have bit 63 clear and increase strictly, unsigned and signed; so no two
are equal. Requesters, order of acceptance and everything else are free. -/
def Obligations.AllocationsStrictlyIncrease : Prop :=
  ∀ (k : Nat) (s : State), s.initDone = true → s.phase = .idle → s.last = 0 → s.seq = 0 →
    s.node.toNat < 1024 → AlongRun NoRestart k s →
    (∀ x ∈ samplesTaken k s, (x - s.epoch).toNat < 2 ^ 41) →
    (samplesTaken k s).Pairwise (fun x y => (x - s.epoch).toNat ≤ (y - s.epoch).toNat) →
    (∀ id ∈ allocations k s, id.getLsbD 63 = false) ∧
    (allocations k s).Pairwise (fun x y => x.toNat < y.toNat) ∧
    (allocations k s).Pairwise (fun x y => x.toInt < y.toInt) ∧
    (allocations k s).Nodup

/-- The clock premise of "Uniqueness and order" is needed (40_generator.md, the backward clock;
70_reset_and_hazards.md, "Clock-rollback hazard"): a run after a GEN_INIT with a node ID in range, no restart
and time deltas in range returns one identifier twice. -/
def Obligations.ABackwardClockCanRepeatAnIdentifier : Prop :=
  ∃ (k : Nat) (s : State), s.initDone = true ∧ s.phase = .idle ∧ s.last = 0 ∧ s.seq = 0 ∧
    s.node.toNat < 1024 ∧ AlongRun NoRestart k s ∧
    (∀ x ∈ samplesTaken k s, (x - s.epoch).toNat < 2 ^ 41) ∧
    allocations k s = [0x2801000, 0x2C01000, 0x2801000]

/-- The premise of no GEN_INIT in between is needed (70_reset_and_hazards.md, "Restart hazard"): a run with a
steady clock returns one identifier before and after a GEN_INIT. -/
def Obligations.ReinitialisingCanRepeatAnIdentifier : Prop :=
  ∃ (k : Nat) (s : State), s.initDone = true ∧ s.phase = .idle ∧ s.last = 0 ∧ s.seq = 0 ∧
    s.node.toNat < 1024 ∧ AlongRun NoReset k s ∧
    (∀ x ∈ samplesTaken k s, (x - s.epoch).toNat = 20) ∧
    allocations k s = [0x5002000, 0x5002001, 0x5002000]

/-! ### Requests, responses, statuses -/

/-- A step whose move serves a requester with a legal request outstanding is `exec` of the decoded
instruction, in the state whose move is taken, whose ports are free, and whose decoder serves that requester;
a word placed by `withFetchWord` is such a request (log 12, log 13). -/
def Obligations.StepRunsTheDecodedInstruction : Prop :=
  (∀ (s : State) (r : RequesterId) (q : Request) (i : Instr),
    s.nextMove = .serve r → s.pending.find r = some q → decode q = .ok i →
    step s = exec i { s with moves := s.moves.tail, clk := none, rsp := none, active := r }) ∧
  ∀ (s : State) (nbits w : Nat) (i : Instr), decodeTableWord nbits w = some i → s.phase = .idle →
    step (s.withFetchWord nbits w) =
      exec i { s with
        pending := s.pending.insert 0 (Request.ofTableWord nbits w)
        moves := s.moves
        clk := none
        rsp := none
        active := 0 }

/-- 60_exceptions.md R121 and 30_encoding.md R63 (decision D8): a request with an illegal code is answered ILLEGAL_OP by the
decoder, in any state, a busy-wait included: results 0, no register, not PHASE, no sample; its requester has
none outstanding afterwards. -/
def Obligations.IllegalCodesAreAnsweredAtOnce : Prop :=
  ∀ (s : State) (r : RequesterId) (q : Request), s.nextMove = .serve r → s.pending.find r = some q →
    q.op ∈ ([0x3, 0x4, 0x5, 0x6, 0x7, 0xA, 0xB, 0xC, 0xD, 0xE, 0xF] : List (BitVec 4)) →
    step s = .next { s with
      moves := s.moves.tail
      clk := none
      active := r
      pending := s.pending.erase r
      rsp := some ⟨r, .illegalOp, 0, 0, 0, 0⟩ } ∧
    (s.pending.erase r).find r = none

/-- 30_encoding.md R64 (decision D7): decoding is by OP alone, and no operand value makes a request illegal. -/
def Obligations.DecodingIsByOpAlone : Prop :=
  ∀ q : Request,
    (decode q = .ok (.semEncode q.a q.b q.c) ↔ q.op = 0x0) ∧
    (decode q = .ok (.semDecode q.a q.b q.c) ↔ q.op = 0x1) ∧
    (decode q = .ok (.sfCompose q.a q.b q.c) ↔ q.op = 0x2) ∧
    (decode q = .ok (.genInit q.a q.b q.c) ↔ q.op = 0x8) ∧
    (decode q = .ok (.genNext q.a q.b q.c) ↔ q.op = 0x9) ∧
    (decode q = .error (.illegalOp q.op) ↔
      q.op ≠ 0x0 ∧ q.op ≠ 0x1 ∧ q.op ≠ 0x2 ∧ q.op ≠ 0x8 ∧ q.op ≠ 0x9) ∧
    (decode q = .error (.illegalOp q.op) ∨ ∃ i : Instr, decode q = .ok i)

/-- 30_encoding.md R61 (decision D7): OP[3] selects the unit, and OP[2:0] the operation within it. -/
def Obligations.TopOpBitSelectsTheUnit : Prop :=
  ∀ (q q' : Request) (i i' : Instr), decode q = .ok i → decode q' = .ok i' →
    (q.op.getLsbD 3 = false ↔ i.op.unit = .codec) ∧ (q.op.getLsbD 3 = true ↔ i.op.unit = .generator) ∧
    (i.op.unit = i'.op.unit → q.op.extractLsb' 0 3 = q'.op.extractLsb' 0 3 → i.op = i'.op)

/-- Some request words, written out from 30_encoding.md R60 and R62 and the vectors of 95_test_vectors.md,
and the instructions they stand for. -/
def Obligations.WrittenOutWordsDecode : Prop :=
  decodeWord 0x00000004F48D36679_0000000000000032_0000000000000064 =
    .ok (.semEncode 0x4F48D36679 0x32 0x64) ∧
  decodeWord 0x127A469B33C800E75_0000000000000000_0000000000000000 =
    .ok (.semDecode 0x27A469B33C800E75 0 0) ∧
  decodeWord 0x200000000000003E8_0000000000000005_0000000000000007 = .ok (.sfCompose 0x3E8 5 7) ∧
  decodeWord 0x80000000000000005_0000000000000077_0000000000000088 = .ok (.genInit 5 0x77 0x88) ∧
  decodeWord 0x90000000000000000_0000000000000000_0000000000000000 = .ok (.genNext 0 0 0) ∧
  decodeWord 0x30000000000000001_0000000000000002_0000000000000003 = .error (.illegalOp 3)

/-- Some lines of the assembler syntax (30_encoding.md, "Assembler syntax"; the programs of
95_test_vectors.md), the requests they write, and how a response is written. That a line with surplus operands
(`GEN_NEXT 1`) is refused, where white space may stand, and the base and digits of a printed result are the
model's choice (log 15, DESIGN CHOICE). -/
def Obligations.AssemblerLinesWriteRequests : Prop :=
  assemble "SEM_ENCODE 340524230265, 50, 100".toList = some ⟨0x0, 0x4F48D36679, 0x32, 0x64⟩ ∧
  assemble "SEM_DECODE 0x27A469B33C80C864".toList = some ⟨0x1, 0x27A469B33C80C864, 0, 0⟩ ∧
  assemble "SF_COMPOSE 1000, 5, 7".toList = some ⟨0x2, 0x3E8, 5, 7⟩ ∧
  assemble "GEN_INIT 5".toList = some ⟨0x8, 5, 0, 0⟩ ∧
  assemble "GEN_NEXT".toList = some ⟨0x9, 0, 0, 0⟩ ∧
  assemble "GEN_NEXT 1".toList = none ∧ assemble "GEN_STOP".toList = none ∧
  Response.text ⟨.ok, 0xFA005007, 0, 0, 0⟩ = "-> ST=OK R0=0xFA005007".toList ∧
  Response.text ⟨.illegalOp, 0, 0, 0, 0⟩ = "-> ST=ILLEGAL_OP".toList

/-- Every well-formed instruction is read back from its 196-bit word, with every operand at every value. -/
def Obligations.DecodeOfEncodeIsTheInstruction : Prop :=
  ∀ i : Instr, i.wellFormed = true → decodeWord (encode i) = .ok i

/-- Every legal word is the encoding of the instruction it decodes to, so no two words mean one
instruction. -/
def Obligations.EncodeOfDecodeIsTheWord : Prop :=
  ∀ (w : BitVec 196) (i : Instr), decodeWord w = .ok i → encode i = w

/-- 20_memory.md, "Ports and bit order": the byte order of a serialised port value is open; under either order
the eight bytes carry the value, so the block's values do not depend on it. -/
def Obligations.EitherByteOrderCarriesTheValue : Prop :=
  ∀ (o : ByteOrder) (v : Word), Word.ofBytes o (Word.toBytes o v) = v ∧ (Word.toBytes o v).length = 8

/-- 30_encoding.md, "Response format": the status codes; code 3 is never returned. -/
def Obligations.StatusCodesLeaveThreeReserved : Prop :=
  Status.code .ok = 0 ∧ Status.code .illegalOp = 1 ∧ Status.code .uninit = 2 ∧
  ∀ st : Status, Status.code st ≠ 3 ∧ Status.ofCode (Status.code st) = some st

/-- 30_encoding.md, "Request format": the operands the operation table does not list are ignored. -/
def Obligations.UnlistedOperandsAreIgnored : Prop :=
  ∀ (a b c a' b' c' : Word) (s : State),
    exec (.semDecode a b c) s = exec (.semDecode a b' c') s ∧
    exec (.genInit a b c) s = exec (.genInit a b' c') s ∧
    exec (.genNext a b c) s = exec (.genNext a' b' c') s

/-- 60_exceptions.md R120 and R124 (decisions D8, D11): no legal operation with INIT_DONE = 1 reports an error. More exactly, in every
state of the invariant, a request is answered ILLEGAL_OP exactly when its code is illegal, UNINIT exactly when
it is a GEN_NEXT and INIT_DONE is 0, and OK otherwise. -/
def Obligations.OnlyIllegalCodesAndEarlyNextsFail : Prop :=
  ∀ (s t : State) (q : Request) (x : Response), s.Inv → step s = .next t →
    answered s t = some (q, x) →
    (x.st = .illegalOp ↔ q.wellFormed = false) ∧
    (x.st = .uninit ↔ q.op = 0x9 ∧ s.initDone = false) ∧
    (x.st = .ok ↔ q.wellFormed = true ∧ (q.op = 0x9 → s.initDone = true))

/-- 60_exceptions.md R123 (decisions D8, D9): a request answered with an error status changes no register, PHASE and the clock's
samples included, its results are all 0, and the status is kept nowhere but in the response. -/
def Obligations.ErrorResponsesHaveNoEffect : Prop :=
  ∀ (s t : State) (d : Delivery), step s = .next t → t.rsp = some d → d.response.st ≠ .ok →
    d.response.r0 = 0 ∧ d.response.r1 = 0 ∧ d.response.r2 = 0 ∧ d.response.r3 = 0 ∧
    t = { s with
      moves := s.moves.tail
      clk := none
      active := d.dest
      pending := s.pending.erase d.dest
      rsp := some d }

/-- 10_state.md, "Constants, flags and other state": what stands on the response port and on the clock port is
not stored; no later step reads it. -/
def Obligations.NoStepReadsAnEarlierResponse : Prop :=
  ∀ (s : State) (x : Option Delivery) (y : Option Word), step { s with rsp := x, clk := y } = step s

/-- 20_memory.md, "Transactions, atomicity and side effects": in every state of the invariant, a delivered
response answers one outstanding request, to the requester that issued it, and touches no other; and a request
ceases to be outstanding only by its response or by a reset. -/
def Obligations.EachResponseAnswersOneRequest : Prop :=
  ∀ s t : State, s.Inv → step s = .next t →
    (∀ d, t.rsp = some d → s.pending.find d.dest ≠ none ∧ t.pending.find d.dest = none ∧
      ∀ r, r ≠ d.dest → t.pending.find r = s.pending.find r) ∧
    (∀ r q, s.pending.find r = some q → t.pending.find r = some q ∨ s.nextMove = .reset ∨
      (t.pending.find r = none ∧ ∃ d, t.rsp = some d ∧ d.dest = r))

/-- 10_state.md, "Who reads and writes what", the writes: in every state of the invariant and for every step
but reset, EPOCH is not written; a step that answers a GEN_INIT writes NODE, LAST, SEQ and INIT_DONE; one that
answers a GEN_NEXT with OK writes at most LAST and SEQ; every other step, the steps of a busy-wait among them,
writes none of them. -/
def Obligations.RegistersAreWrittenOnlyAtCompletion : Prop :=
  ∀ s t : State, s.Inv → step s = .next t → s.nextMove ≠ .reset →
    t.epoch = s.epoch ∧
    match answered s t with
    | none => t.node = s.node ∧ t.last = s.last ∧ t.seq = s.seq ∧ t.initDone = s.initDone
    | some (q, x) =>
      if q.op = 0x8 then t.node = q.a ∧ t.last = 0 ∧ t.seq = 0 ∧ t.initDone = true
      else if q.op = 0x9 ∧ x.st = .ok then t.node = s.node ∧ t.initDone = s.initDone
      else t.node = s.node ∧ t.last = s.last ∧ t.seq = s.seq ∧ t.initDone = s.initDone

/-- 20_memory.md, "Transactions, atomicity and side effects": while one requester's generator operation is in
flight, no other requester's generator request is answered, and the operation stays in flight until its own
response or a reset. -/
def Obligations.OneGeneratorOperationAtATime : Prop :=
  ∀ (s t : State) (r : RequesterId) (u : Word) (n : SeqNo), s.phase = .busy r u n → step s = .next t →
    s.nextMove ≠ .reset →
    (∀ q x d, answered s t = some (q, x) → t.rsp = some d → (q.op = 0x8 ∨ q.op = 0x9) → d.dest = r) ∧
    ((∃ u', t.phase = .busy r u' n) ∨ (t.phase = .idle ∧ ∃ d, t.rsp = some d ∧ d.dest = r))

/-- 20_memory.md, "Transactions, atomicity and side effects": while the generator unit is free, any waiting
generator request may be the one it accepts next: some move leads to its response or to its busy-wait. -/
def Obligations.AnyWaitingRequestMayBeAcceptedNext : Prop :=
  ∀ (s : State) (r : RequesterId) (q : Request), s.phase = .idle → s.pending.find r = some q →
    (q.op = 0x8 ∨ q.op = 0x9) →
    ∃ (m : Move) (t : State), step { s with moves := ⟨m :: s.moves.ahead, s.moves.drawn⟩ } = .next t ∧
      t.moves = s.moves ∧
      ((∃ x, t.rsp = some ⟨r, x⟩ ∧ t.phase = .idle) ∨ ∃ u, t.phase = .busy r u 0)

/-- 20_memory.md, "Transactions, atomicity and side effects" and "A run, and what the environment may do": a
requester of the block with none outstanding may issue any request, which is then outstanding, and nothing
else changes; a second request while one is outstanding, and a request of no requester, stop the model (log 5,
log 6). -/
def Obligations.IssuingARequestMakesItOutstanding : Prop :=
  ∀ (s : State) (r : RequesterId) (q : Request), s.nextMove = .issue r q →
    (r < Config.nRequesters → s.pending.find r = none → ∃ p : Pending,
      step s = .next { s with moves := s.moves.tail, clk := none, rsp := none, pending := p } ∧
      p.find r = some q ∧ (∀ r', r' ≠ r → p.find r' = s.pending.find r') ∧ (s.pending.wf → p.wf)) ∧
    (r < Config.nRequesters → s.pending.find r ≠ none → step s = .fault (.secondRequest r)) ∧
    (Config.nRequesters ≤ r → step s = .fault (.noSuchRequester r))

/-- 60_exceptions.md, introduction ("every operation is total"): a step stops only on a move the environment
is assumed never to make, no instruction stops, and nothing is refused (log 5, log 6). -/
def Obligations.OnlyTheEnvironmentCanStopTheModel : Prop :=
  (∀ (s : State) (f : Fault), step s = .fault f → ∃ r q, s.nextMove = .issue r q ∧
    (s.pending.find r ≠ none ∨ Config.nRequesters ≤ r)) ∧
  (∀ (s : State) (x : Refusal), step s ≠ .refused x) ∧
  ∀ (i : Instr) (s : State), ∃ t, exec i s = .next t

/-! ### Reset and the invariant -/

/-- 10_state.md R36 (decisions D10, D11, D13, D14): the reset values. -/
def Obligations.ResetValues : Prop :=
  State.reset.epoch = Config.epochMs ∧ State.reset.node = 0 ∧ State.reset.last = 0 ∧
  State.reset.seq = 0 ∧ State.reset.initDone = false ∧ State.reset.phase = .idle ∧
  State.reset.pending = []

/-- 70_reset_and_hazards.md, "Reset", and 10_state.md, "Reset values": asserting reset, in any state, a busy-wait
included, puts every register at its reset value and discards every request without a response. That the coming
samples, and the moves after this one, are left as they are is the model's choice (log 10, DESIGN CHOICE). -/
def Obligations.ResetDiscardsEveryRequest : Prop :=
  ∀ s : State, s.nextMove = .reset → ∃ t : State, step s = .next t ∧
    t.epoch = Config.epochMs ∧ t.node = 0 ∧ t.last = 0 ∧ t.seq = 0 ∧ t.initDone = false ∧
    t.phase = .idle ∧ t.pending = [] ∧ t.rsp = none ∧ (∀ r, t.pending.find r = none) ∧
    t.samples = s.samples ∧ t.moves = s.moves.tail

/-- 70_reset_and_hazards.md, "Reset" and "Boot": as long as no GEN_INIT has completed, resets in between or
not, no GEN_NEXT returns an identifier. -/
def Obligations.NoIdentifierBeforeAGenInit : Prop :=
  ∀ (k : Nat) (s : State), s.Inv → s.initDone = false →
    AlongRun (fun s t => ∀ q x, answered s t = some (q, x) → q.isGenInit = false) k s →
    allocations k s = []

/-- The invariant holds at reset. Its clause about a BUSY PHASE is the model's choice (log 4, DEDUCED). -/
def Obligations.InvariantHoldsAtReset : Prop := State.reset.Inv

/-- Every step that leads to a next state keeps the invariant: the outstanding requests stay in canonical form
and belong to the block's requesters, EPOCH stays the parameter, the generator registers keep their reset
values until a GEN_INIT, and PHASE is BUSY only for a GEN_NEXT whose requester still waits. The last clause is
the model's choice (log 4, DEDUCED): GEN_INIT, and the acceptance of a GEN_NEXT, take no step of their own, where
10_state.md has PHASE BUSY from the acceptance of either to its response. -/
def Obligations.EveryStepKeepsTheInvariant : Prop :=
  ∀ s t : State, s.Inv → step s = .next t → t.Inv

/-- 20_memory.md, "A run, and what the environment may do": a run in which a GEN_NEXT is still spinning has not
ended, in every state of the invariant. That a BUSY PHASE is a spinning GEN_NEXT is the model's choice (log 4).
That a request discarded by reset does not keep a run from having ended is the model's choice too (log 17); this
holds without it. -/
def Obligations.ASpinningRunHasNotEnded : Prop :=
  ∀ (s : State) (r : RequesterId) (u : Word) (n : SeqNo), s.Inv → s.phase = .busy r u n → ¬ RunEnded s

/-- Programs that use legal codes, from a state in which a GEN_INIT has completed and with no reset, commit no
fault, whatever the clock does and in whatever order the agents move (log 16). -/
def Obligations.LegalProgramsCommitNoFault : Prop :=
  ∀ (k : Nat) (s : State), s.Inv → s.initDone = true → (∀ e ∈ s.pending, e.2.wellFormed = true) →
    AlongRun (fun s _ => s.nextMove ≠ .reset ∧
      ∀ r q, s.nextMove = .issue r q → q.wellFormed = true) k s →
    SafeRun k s
end

