-- ==== Sys2Proof/Laws/Decode.lean ====
section
/-! SUPPORT. The decoder by operation code: what each code decodes to, and which codes are illegal. -/

namespace Sys2Proof

open Machine

/-- The bits of four concatenated values, the last one lowest. -/
theorem getLsbD_append4 {k l m n : Nat} (w : BitVec k) (x : BitVec l) (y : BitVec m) (z : BitVec n)
    (i : Nat) :
    (w ++ x ++ y ++ z).getLsbD i =
      if i < n then z.getLsbD i else if i - n < m then y.getLsbD (i - n)
      else if i - n - m < l then x.getLsbD (i - n - m) else w.getLsbD (i - n - m - l) := by
  simp only [BitVec.getLsbD_append]

theorem Request.toWord_getLsbD (q : Request) (i : Nat) :
    q.toWord.getLsbD i =
      if i < 64 then q.c.getLsbD i else if i - 64 < 64 then q.b.getLsbD (i - 64)
      else if i - 64 - 64 < 64 then q.a.getLsbD (i - 64 - 64) else q.op.getLsbD (i - 64 - 64 - 64) :=
  getLsbD_append4 q.op q.a q.b q.c i

theorem Request.toWord_op (q : Request) : q.toWord.extractLsb' 192 4 = q.op := by
  ext i hi
  rw [BitVec.getElem_extractLsb', Request.toWord_getLsbD, ← BitVec.getLsbD_eq_getElem,
    if_neg (by omega), if_neg (by omega), if_neg (by omega), show 192 + i - 64 - 64 - 64 = i by omega]

theorem Request.toWord_a (q : Request) : q.toWord.extractLsb' 128 64 = q.a := by
  ext i hi
  rw [BitVec.getElem_extractLsb', Request.toWord_getLsbD, ← BitVec.getLsbD_eq_getElem,
    if_neg (by omega), if_neg (by omega), if_pos (by omega), show 128 + i - 64 - 64 = i by omega]

theorem Request.toWord_b (q : Request) : q.toWord.extractLsb' 64 64 = q.b := by
  ext i hi
  rw [BitVec.getElem_extractLsb', Request.toWord_getLsbD, ← BitVec.getLsbD_eq_getElem,
    if_neg (by omega), if_pos (by omega), show 64 + i - 64 = i by omega]

theorem Request.toWord_c (q : Request) : q.toWord.extractLsb' 0 64 = q.c := by
  ext i hi
  rw [BitVec.getElem_extractLsb', Request.toWord_getLsbD, ← BitVec.getLsbD_eq_getElem,
    if_pos (by omega), Nat.zero_add]

/-- A request is read back from its word whole. -/
@[simp] theorem Request.ofWord_toWord (q : Request) : Request.ofWord q.toWord = q := by
  simp [Request.ofWord, Request.toWord_op, Request.toWord_a, Request.toWord_b, Request.toWord_c]

/-- What a request decodes to, by its code alone (30_encoding.md R62, R63, R64). -/
theorem decode_cases (q : Request) :
    (q.op = 0x0 ∧ decode q = .ok (.semEncode q.a q.b q.c)) ∨
    (q.op = 0x1 ∧ decode q = .ok (.semDecode q.a q.b q.c)) ∨
    (q.op = 0x2 ∧ decode q = .ok (.sfCompose q.a q.b q.c)) ∨
    (q.op = 0x8 ∧ decode q = .ok (.genInit q.a q.b q.c)) ∨
    (q.op = 0x9 ∧ decode q = .ok (.genNext q.a q.b q.c)) ∨
    (q.wellFormed = false ∧ decode q = .error (.illegalOp q.op)) := by
  obtain ⟨op, a, b, c⟩ := q
  have key : ∀ op : BitVec 4,
      (op = 0x0 ∧ Op.ofCode op = some .semEncode) ∨ (op = 0x1 ∧ Op.ofCode op = some .semDecode) ∨
      (op = 0x2 ∧ Op.ofCode op = some .sfCompose) ∨ (op = 0x8 ∧ Op.ofCode op = some .genInit) ∨
      (op = 0x9 ∧ Op.ofCode op = some .genNext) ∨
      ((!([0x3, 0x4, 0x5, 0x6, 0x7, 0xA, 0xB, 0xC, 0xD, 0xE, 0xF] : List (BitVec 4)).contains op) = false ∧
        Op.ofCode op = none) := by decide
  rcases key op with ⟨h, e⟩ | ⟨h, e⟩ | ⟨h, e⟩ | ⟨h, e⟩ | ⟨h, e⟩ | ⟨h, e⟩ <;>
    simp_all [decode, Instr.ofOp, Request.wellFormed]

theorem Request.wellFormed_of_isGenNext {q : Request} (h : q.isGenNext = true) : q.wellFormed = true := by
  have : q.op = 0x9 := by simpa [Request.isGenNext, Op.code] using h
  simp [Request.wellFormed, this]

end Sys2Proof
end

