-- ==== Sys2Proof/Laws/Layout.lean ====
section
/-! SUPPORT. The identifier layouts bit by bit. -/

namespace Sys2Proof.Machine

theorem modPow2_getLsbD (k : Nat) (v : Word) (i : Nat) :
    (modPow2 k v).getLsbD i = (decide (i < 64) && (decide (i < k) && v.getLsbD i)) := by
  simp [modPow2]

/-- The low `k` bits are the remainder by `2^k`. -/
theorem modPow2_eq_ofNat (k : Nat) (v : Word) : modPow2 k v = BitVec.ofNat 64 (v.toNat % 2 ^ k) := by
  apply BitVec.eq_of_toNat_eq
  simp [modPow2]

theorem packSemantic_getLsbD (a b c : Word) (i : Nat) :
    (packSemantic a b c).getLsbD i =
      (decide (i < 64) && if i < 10 then c.getLsbD i else if i < 23 then b.getLsbD (i - 10)
        else a.getLsbD (i - 23)) := by
  simp only [packSemantic, BitVec.getLsbD_or, BitVec.getLsbD_shiftLeft, modPow2_getLsbD]
  by_cases h64 : i < 64
  · by_cases h10 : i < 10
    · simp [h64, h10, show i < 23 by omega]
    · by_cases h23 : i < 23
      · simp [h64, h10, h23, show i - 10 < 64 by omega, show i - 10 < 13 by omega]
      · simp [h64, h10, h23, show ¬ i - 10 < 13 by omega]
  · simp [h64]

/-- The packed identifier is its three fields one beside another (41_semantic_codec.md R100). -/
theorem packSemantic_eq_append (a b c : Word) :
    packSemantic a b c = a.extractLsb' 0 41 ++ b.extractLsb' 0 13 ++ c.extractLsb' 0 10 := by
  have key : ∀ i, (packSemantic a b c).getLsbD i =
      BitVec.getLsbD (w := 41 + 13 + 10) (a.extractLsb' 0 41 ++ b.extractLsb' 0 13 ++ c.extractLsb' 0 10) i := by
    intro i
    rw [packSemantic_getLsbD]
    simp only [BitVec.getLsbD_append, BitVec.getLsbD_extractLsb', Nat.zero_add]
    by_cases h64 : i < 64
    · by_cases h10 : i < 10
      · simp [h64, h10]
      · by_cases h23 : i < 23
        · simp [h64, h10, h23, show i - 10 < 13 by omega]
        · simp [h64, h10, h23, show ¬ i - 10 < 13 by omega, show i - 10 - 13 = i - 23 by omega,
            show i - 23 < 41 by omega]
    · simp [h64, show ¬ i < 10 by omega, show ¬ i - 10 < 13 by omega, show ¬ i - 10 - 13 < 41 by omega]
  exact BitVec.eq_of_getLsbD_eq fun i _ => key i

theorem semanticObject_getLsbD (id : Word) (i : Nat) :
    (semanticObject id).getLsbD i = id.getLsbD (23 + i) := by
  simp [semanticObject]

theorem semanticNode_getLsbD (id : Word) (i : Nat) :
    (semanticNode id).getLsbD i = (decide (i < 13) && id.getLsbD (10 + i)) := by
  simp only [semanticNode, BitVec.getLsbD_ushiftRight, BitVec.getLsbD_shiftLeft]
  by_cases h : i < 13
  · simp [h, show 51 + i < 64 by omega, show 51 + i - 41 = 10 + i by omega,
      show 41 ≤ 51 + i by omega]
  · simp [h, show ¬ 51 + i < 64 by omega]

/-- The mask of `k` ones keeps the low `k` bits. -/
theorem getLsbD_and_mask (v : Word) (k i : Nat) (hk : k ≤ 64) :
    (v &&& BitVec.ofNat 64 (2 ^ k - 1)).getLsbD i = (decide (i < k) && v.getLsbD i) := by
  rw [BitVec.getLsbD_and, BitVec.getLsbD_ofNat, Nat.testBit_two_pow_sub_one]
  by_cases h : i < k
  · simp [h, show i < 64 by omega]
  · simp [h]

theorem semanticType_getLsbD (id : Word) (i : Nat) :
    (semanticType id).getLsbD i = (decide (i < 10) && id.getLsbD i) :=
  getLsbD_and_mask id 10 i (by decide)

theorem semanticGlobalType_getLsbD (id : Word) (i : Nat) :
    (semanticGlobalType id).getLsbD i = (decide (i < 23) && id.getLsbD i) :=
  getLsbD_and_mask id 23 i (by decide)

theorem composeClassic_getLsbD (t n q : Word) (i : Nat) :
    (composeClassic t n q).getLsbD i =
      (decide (i < 64) && ((decide (22 ≤ i) && t.getLsbD (i - 22)) || (decide (12 ≤ i) && n.getLsbD (i - 12)) ||
        q.getLsbD i)) := by
  simp only [composeClassic, BitVec.getLsbD_or, BitVec.getLsbD_shiftLeft]
  by_cases h64 : i < 64
  · by_cases h22 : i < 22 <;> by_cases h12 : i < 12 <;>
      simp [h64, h22, h12, Nat.not_lt.1, show (22 ≤ i) = ¬ i < 22 by simp, show (12 ≤ i) = ¬ i < 12 by simp]
  · simp [h64, BitVec.getLsbD_of_ge q i (by omega)]

/-- A bit at or above a value's size is clear. -/
theorem getLsbD_eq_false_of_toNat_lt {v : Word} {k i : Nat} (h : v.toNat < 2 ^ k) (hi : k ≤ i) :
    v.getLsbD i = false := by
  rw [BitVec.getLsbD]
  exact Nat.testBit_lt_two_pow (Nat.lt_of_lt_of_le h (Nat.pow_le_pow_right (by decide) hi))

/-- The classic identifier of fields in range, as a number (40_generator.md R80). -/
theorem composeClassic_toNat {t n q : Word} (ht : t.toNat < 2 ^ 41) (hn : n.toNat < 1024)
    (hq : q.toNat < 4096) :
    (composeClassic t n q).toNat = t.toNat * 2 ^ 22 + n.toNat * 2 ^ 12 + q.toNat := by
  have h1 : (t <<< 22).toNat = 2 ^ 22 * t.toNat := by
    rw [BitVec.toNat_shiftLeft, Nat.shiftLeft_eq, Nat.mod_eq_of_lt (by omega), Nat.mul_comm]
  have h2 : (n <<< 12).toNat = 2 ^ 12 * n.toNat := by
    rw [BitVec.toNat_shiftLeft, Nat.shiftLeft_eq, Nat.mod_eq_of_lt (by omega), Nat.mul_comm]
  rw [composeClassic, BitVec.toNat_or, BitVec.toNat_or, h1, h2,
    ← Nat.two_pow_add_eq_or_of_lt (show 2 ^ 12 * n.toNat < 2 ^ 22 by omega),
    show 2 ^ 22 * t.toNat + 2 ^ 12 * n.toNat = 2 ^ 12 * (2 ^ 10 * t.toNat + n.toNat) by ring,
    ← Nat.two_pow_add_eq_or_of_lt (show q.toNat < 2 ^ 12 by omega)]
  ring

end Sys2Proof.Machine
end

