-- ==== Sys2Proof/Laws/State.lean ====
section
/-! SUPPORT. One lemma per field per update of the state, all true by rfl, and what the next sample and the
next move are after an update. -/

namespace Sys2Proof.Machine

@[simp] theorem State.takeMove_epoch (s : State) : s.takeMove.epoch = s.epoch := rfl
@[simp] theorem State.takeMove_node (s : State) : s.takeMove.node = s.node := rfl
@[simp] theorem State.takeMove_last (s : State) : s.takeMove.last = s.last := rfl
@[simp] theorem State.takeMove_seq (s : State) : s.takeMove.seq = s.seq := rfl
@[simp] theorem State.takeMove_initDone (s : State) : s.takeMove.initDone = s.initDone := rfl
@[simp] theorem State.takeMove_phase (s : State) : s.takeMove.phase = s.phase := rfl
@[simp] theorem State.takeMove_pending (s : State) : s.takeMove.pending = s.pending := rfl
@[simp] theorem State.takeMove_active (s : State) : s.takeMove.active = s.active := rfl
@[simp] theorem State.takeMove_clk (s : State) : s.takeMove.clk = none := rfl
@[simp] theorem State.takeMove_rsp (s : State) : s.takeMove.rsp = none := rfl
@[simp] theorem State.takeMove_samples (s : State) : s.takeMove.samples = s.samples := rfl
@[simp] theorem State.takeMove_moves (s : State) : s.takeMove.moves = s.moves.tail := rfl

@[simp] theorem State.takeSample_epoch (s : State) : s.takeSample.epoch = s.epoch := rfl
@[simp] theorem State.takeSample_node (s : State) : s.takeSample.node = s.node := rfl
@[simp] theorem State.takeSample_last (s : State) : s.takeSample.last = s.last := rfl
@[simp] theorem State.takeSample_seq (s : State) : s.takeSample.seq = s.seq := rfl
@[simp] theorem State.takeSample_initDone (s : State) : s.takeSample.initDone = s.initDone := rfl
@[simp] theorem State.takeSample_phase (s : State) : s.takeSample.phase = s.phase := rfl
@[simp] theorem State.takeSample_pending (s : State) : s.takeSample.pending = s.pending := rfl
@[simp] theorem State.takeSample_active (s : State) : s.takeSample.active = s.active := rfl
@[simp] theorem State.takeSample_clk (s : State) : s.takeSample.clk = some s.nextSample := rfl
@[simp] theorem State.takeSample_rsp (s : State) : s.takeSample.rsp = s.rsp := rfl
@[simp] theorem State.takeSample_samples (s : State) : s.takeSample.samples = s.samples.tail := rfl
@[simp] theorem State.takeSample_moves (s : State) : s.takeSample.moves = s.moves := rfl

@[simp] theorem State.respondTo_epoch (r : RequesterId) (x : Response) (s : State) : (s.respondTo r x).epoch = s.epoch := rfl
@[simp] theorem State.respondTo_node (r : RequesterId) (x : Response) (s : State) : (s.respondTo r x).node = s.node := rfl
@[simp] theorem State.respondTo_last (r : RequesterId) (x : Response) (s : State) : (s.respondTo r x).last = s.last := rfl
@[simp] theorem State.respondTo_seq (r : RequesterId) (x : Response) (s : State) : (s.respondTo r x).seq = s.seq := rfl
@[simp] theorem State.respondTo_initDone (r : RequesterId) (x : Response) (s : State) : (s.respondTo r x).initDone = s.initDone := rfl
@[simp] theorem State.respondTo_phase (r : RequesterId) (x : Response) (s : State) : (s.respondTo r x).phase = s.phase := rfl
@[simp] theorem State.respondTo_pending (r : RequesterId) (x : Response) (s : State) : (s.respondTo r x).pending = s.pending.erase r := rfl
@[simp] theorem State.respondTo_active (r : RequesterId) (x : Response) (s : State) : (s.respondTo r x).active = s.active := rfl
@[simp] theorem State.respondTo_clk (r : RequesterId) (x : Response) (s : State) : (s.respondTo r x).clk = s.clk := rfl
@[simp] theorem State.respondTo_rsp (r : RequesterId) (x : Response) (s : State) : (s.respondTo r x).rsp = some ⟨r, x⟩ := rfl
@[simp] theorem State.respondTo_samples (r : RequesterId) (x : Response) (s : State) : (s.respondTo r x).samples = s.samples := rfl
@[simp] theorem State.respondTo_moves (r : RequesterId) (x : Response) (s : State) : (s.respondTo r x).moves = s.moves := rfl

@[simp] theorem State.finishNext_epoch (r : RequesterId) (t : Word) (n : SeqNo) (s : State) : (s.finishNext r t n).epoch = s.epoch := rfl
@[simp] theorem State.finishNext_node (r : RequesterId) (t : Word) (n : SeqNo) (s : State) : (s.finishNext r t n).node = s.node := rfl
@[simp] theorem State.finishNext_last (r : RequesterId) (t : Word) (n : SeqNo) (s : State) : (s.finishNext r t n).last = t := rfl
@[simp] theorem State.finishNext_seq (r : RequesterId) (t : Word) (n : SeqNo) (s : State) : (s.finishNext r t n).seq = n := rfl
@[simp] theorem State.finishNext_initDone (r : RequesterId) (t : Word) (n : SeqNo) (s : State) : (s.finishNext r t n).initDone = s.initDone := rfl
@[simp] theorem State.finishNext_phase (r : RequesterId) (t : Word) (n : SeqNo) (s : State) : (s.finishNext r t n).phase = .idle := rfl
@[simp] theorem State.finishNext_pending (r : RequesterId) (t : Word) (n : SeqNo) (s : State) : (s.finishNext r t n).pending = s.pending.erase r := rfl
@[simp] theorem State.finishNext_active (r : RequesterId) (t : Word) (n : SeqNo) (s : State) : (s.finishNext r t n).active = s.active := rfl
@[simp] theorem State.finishNext_clk (r : RequesterId) (t : Word) (n : SeqNo) (s : State) : (s.finishNext r t n).clk = s.clk := rfl
@[simp] theorem State.finishNext_rsp (r : RequesterId) (t : Word) (n : SeqNo) (s : State) : (s.finishNext r t n).rsp = some ⟨r, .ok, composeClassic t s.node (n.setWidth 64), 0, 0, 0⟩ := rfl
@[simp] theorem State.finishNext_samples (r : RequesterId) (t : Word) (n : SeqNo) (s : State) : (s.finishNext r t n).samples = s.samples := rfl
@[simp] theorem State.finishNext_moves (r : RequesterId) (t : Word) (n : SeqNo) (s : State) : (s.finishNext r t n).moves = s.moves := rfl

@[simp] theorem State.applyReset_epoch (s : State) : s.applyReset.epoch = State.reset.epoch := rfl
@[simp] theorem State.applyReset_node (s : State) : s.applyReset.node = State.reset.node := rfl
@[simp] theorem State.applyReset_last (s : State) : s.applyReset.last = State.reset.last := rfl
@[simp] theorem State.applyReset_seq (s : State) : s.applyReset.seq = State.reset.seq := rfl
@[simp] theorem State.applyReset_initDone (s : State) : s.applyReset.initDone = State.reset.initDone := rfl
@[simp] theorem State.applyReset_phase (s : State) : s.applyReset.phase = State.reset.phase := rfl
@[simp] theorem State.applyReset_pending (s : State) : s.applyReset.pending = State.reset.pending := rfl
@[simp] theorem State.applyReset_active (s : State) : s.applyReset.active = State.reset.active := rfl
@[simp] theorem State.applyReset_clk (s : State) : s.applyReset.clk = State.reset.clk := rfl
@[simp] theorem State.applyReset_rsp (s : State) : s.applyReset.rsp = State.reset.rsp := rfl
@[simp] theorem State.applyReset_samples (s : State) : s.applyReset.samples = s.samples := rfl
@[simp] theorem State.applyReset_moves (s : State) : s.applyReset.moves = s.moves := rfl

@[simp] theorem State.presentRequest_epoch (q : Request) (s : State) : (s.presentRequest q).epoch = s.epoch := rfl
@[simp] theorem State.presentRequest_node (q : Request) (s : State) : (s.presentRequest q).node = s.node := rfl
@[simp] theorem State.presentRequest_last (q : Request) (s : State) : (s.presentRequest q).last = s.last := rfl
@[simp] theorem State.presentRequest_seq (q : Request) (s : State) : (s.presentRequest q).seq = s.seq := rfl
@[simp] theorem State.presentRequest_initDone (q : Request) (s : State) : (s.presentRequest q).initDone = s.initDone := rfl
@[simp] theorem State.presentRequest_phase (q : Request) (s : State) : (s.presentRequest q).phase = phaseForRequest q s.phase := rfl
@[simp] theorem State.presentRequest_pending (q : Request) (s : State) : (s.presentRequest q).pending = s.pending.insert 0 q := rfl
@[simp] theorem State.presentRequest_active (q : Request) (s : State) : (s.presentRequest q).active = s.active := rfl
@[simp] theorem State.presentRequest_clk (q : Request) (s : State) : (s.presentRequest q).clk = s.clk := rfl
@[simp] theorem State.presentRequest_rsp (q : Request) (s : State) : (s.presentRequest q).rsp = s.rsp := rfl
@[simp] theorem State.presentRequest_samples (q : Request) (s : State) : (s.presentRequest q).samples = s.samples := rfl
@[simp] theorem State.presentRequest_moves (q : Request) (s : State) : (s.presentRequest q).moves = ⟨.serve 0 :: s.moves.ahead, s.moves.drawn⟩ := rfl

@[simp] theorem State.takeMove_nextSample (s : State) : s.takeMove.nextSample = s.nextSample := rfl
@[simp] theorem State.setActive_nextSample (s : State) (r : RequesterId) :
    State.nextSample { s with active := r } = s.nextSample := rfl
@[simp] theorem State.presentRequest_nextMove (q : Request) (s : State) :
    (s.presentRequest q).nextMove = .serve 0 := rfl
theorem State.respondOk_eq (r0 r1 r2 r3 : Word) (s : State) :
    s.respondOk r0 r1 r2 r3 = s.respondTo s.active ⟨.ok, r0, r1, r2, r3⟩ := rfl
theorem State.raiseError_eq (st : Status) (s : State) :
    s.raiseError st = s.respondTo s.active (errorResponse st) := rfl

end Sys2Proof.Machine
end

