-- ==== Sys2Proof/Laws/Ops.lean ====
section
/-! SUPPORT. One lemma per case of each meaning and shared operation. -/

namespace Sys2Proof.Machine

theorem execGenInit_busy {s : State} {r : RequesterId} {u : Word} {n : SeqNo} (nodeId : Word)
    (h : s.phase = .busy r u n) : execGenInit nodeId s = .next s := by
  unfold execGenInit; split <;> simp_all

theorem execGenInit_idle {s : State} (nodeId : Word) (h : s.phase = .idle) :
    execGenInit nodeId s =
      .next ({ s with node := nodeId, last := 0, seq := 0, initDone := true }.respondOk 0 0 0 0) := by
  unfold execGenInit; split <;> simp_all

theorem execGenNext_busy {s : State} {r : RequesterId} {u : Word} {n : SeqNo}
    (h : s.phase = .busy r u n) : execGenNext s = .next s := by
  unfold execGenNext; split <;> simp_all

theorem execGenNext_uninit {s : State} (h : s.phase = .idle) (hd : s.initDone = false) :
    execGenNext s = .next (s.raiseError .uninit) := by
  unfold execGenNext; split <;> simp_all

theorem execGenNext_allocate {s : State} (h : s.phase = .idle) (hd : s.initDone = true) :
    execGenNext s = .next s.allocate := by
  unfold execGenNext; split <;> simp_all

theorem State.allocate_advanced {s : State} (ht : timeDelta s.nextSample s.epoch ≠ s.last) :
    s.allocate = s.takeSample.finishNext s.active (timeDelta s.nextSample s.epoch) 0 := by
  simp only [State.allocate, if_neg ht]

theorem State.allocate_sameMs {s : State} (ht : timeDelta s.nextSample s.epoch = s.last)
    (hs : s.seq + 1 ≠ 0) : s.allocate = s.takeSample.finishNext s.active s.last (s.seq + 1) := by
  simp only [State.allocate, ht, if_true, if_neg hs]

theorem State.allocate_exhausted {s : State} (ht : timeDelta s.nextSample s.epoch = s.last)
    (hs : s.seq + 1 = 0) :
    s.allocate = { s.takeSample with phase := .busy s.active s.last 0 } := by
  simp only [State.allocate, ht, if_true, hs]

theorem State.spinOnce_idle {s : State} (h : s.phase = .idle) : s.spinOnce = s := by
  unfold State.spinOnce; split <;> simp_all

theorem lesSigned_iff {a b : Word} : lesSigned a b = true ↔ a.toInt ≤ b.toInt := by
  simp [lesSigned]

theorem State.spinOnce_spun {s : State} {r : RequesterId} {u : Word} {n : SeqNo}
    (h : s.phase = .busy r u n) (hu : u.toInt ≤ s.last.toInt)
    (ht : (timeDelta s.nextSample s.epoch).toInt ≤ s.last.toInt) :
    s.spinOnce = { s.takeSample with phase := .busy r (timeDelta s.nextSample s.epoch) n } := by
  unfold State.spinOnce; split
  · simp_all
  · rename_i r' u' n' h'
    cases h.symm.trans h'
    rw [if_pos (lesSigned_iff.2 hu), if_pos (lesSigned_iff.2 ht)]

theorem State.spinOnce_finished {s : State} {r : RequesterId} {u : Word} {n : SeqNo}
    (h : s.phase = .busy r u n) (hu : u.toInt ≤ s.last.toInt)
    (ht : s.last.toInt < (timeDelta s.nextSample s.epoch).toInt) :
    s.spinOnce = s.takeSample.finishNext r (timeDelta s.nextSample s.epoch) n := by
  unfold State.spinOnce; split
  · simp_all
  · rename_i r' u' n' h'
    cases h.symm.trans h'
    rw [if_pos (lesSigned_iff.2 hu), if_neg (mt lesSigned_iff.1 (not_le.2 ht))]

theorem State.spinOnce_stale {s : State} {r : RequesterId} {u : Word} {n : SeqNo}
    (h : s.phase = .busy r u n) (hu : s.last.toInt < u.toInt) :
    s.spinOnce = s.finishNext r u n := by
  unfold State.spinOnce; split
  · simp_all
  · rename_i r' u' n' h'
    cases h.symm.trans h'
    rw [if_neg (mt lesSigned_iff.1 (not_le.2 hu))]

/-- The supply's items, one after another: taking one leaves the rest. -/
theorem Supply.head_cons {α : Type} (free : Nat → α) (a : α) (rest : List α) (n : Nat) :
    Supply.head free ⟨a :: rest, n⟩ = a := rfl

theorem Supply.tail_cons {α : Type} (a : α) (rest : List α) (n : Nat) :
    Supply.tail ⟨a :: rest, n⟩ = ⟨rest, n⟩ := rfl

theorem Supply.head_nil {α : Type} (free : Nat → α) (n : Nat) : Supply.head free ⟨[], n⟩ = free n := rfl

theorem Supply.tail_nil {α : Type} (n : Nat) : Supply.tail (α := α) ⟨[], n⟩ = ⟨[], n + 1⟩ := rfl

end Sys2Proof.Machine
end

