-- ==== Sys2Proof/Laws/Pending.lean ====
section
/-! SUPPORT. The set of outstanding requests: reading after an insertion or a removal, and that both keep
the canonical form. -/

namespace Sys2Proof.Machine

theorem Pending.find_erase (p : Pending) (r r' : RequesterId) :
    (p.erase r).find r' = if r' = r then none else p.find r' := by
  induction p with
  | nil => simp [Pending.erase, Pending.find]
  | cons e rest ih =>
    obtain ⟨a, q⟩ := e
    by_cases h : a = r <;> by_cases h' : a = r' <;> by_cases h'' : r' = r <;>
      simp_all [Pending.erase, Pending.find]

@[simp] theorem Pending.find_erase_self (p : Pending) (r : RequesterId) : (p.erase r).find r = none := by
  simp [Pending.find_erase]

theorem Pending.find_erase_of_ne (p : Pending) {r r' : RequesterId} (h : r' ≠ r) :
    (p.erase r).find r' = p.find r' := by
  simp [Pending.find_erase, h]

theorem Pending.find_insert (p : Pending) (r r' : RequesterId) (q : Request) :
    (p.insert r q).find r' = if r' = r then some q else p.find r' := by
  induction p with
  | nil => simp [Pending.insert, Pending.find, eq_comm]
  | cons e rest ih =>
    obtain ⟨a, b⟩ := e
    unfold Pending.insert
    by_cases hlt : r < a
    · by_cases h : r' = r
      · simp [Pending.find, hlt, h]
      · simp [Pending.find, hlt, h, Ne.symm h]
    · by_cases heq : r = a
      · subst heq
        by_cases h : r' = r
        · simp [Pending.find, h]
        · simp [Pending.find, h, Ne.symm h]
      · by_cases h : a = r'
        · subst h
          simp [Pending.find, hlt, heq, Ne.symm heq]
        · simp [Pending.find, hlt, heq, h, ih]

@[simp] theorem Pending.find_insert_self (p : Pending) (r : RequesterId) (q : Request) :
    (p.insert r q).find r = some q := by
  simp [Pending.find_insert]

/-- A removal only removes. -/
theorem Pending.mem_of_mem_erase {p : Pending} {r : RequesterId} {e : RequesterId × Request}
    (h : e ∈ p.erase r) : e ∈ p := by
  induction p with
  | nil => simp [Pending.erase] at h
  | cons x rest ih =>
    obtain ⟨a, q⟩ := x
    by_cases ha : a = r
    · simp only [Pending.erase, ha, if_true] at h
      exact List.mem_cons_of_mem _ (ih h)
    · simp only [Pending.erase, ha, if_false, List.mem_cons] at h
      rcases h with rfl | h
      · exact List.mem_cons_self
      · exact List.mem_cons_of_mem _ (ih h)

/-- An insertion adds one entry at most. -/
theorem Pending.mem_of_mem_insert {p : Pending} {r : RequesterId} {q : Request}
    {e : RequesterId × Request} (h : e ∈ p.insert r q) : e = (r, q) ∨ e ∈ p := by
  induction p with
  | nil => simpa [Pending.insert] using h
  | cons x rest ih =>
    obtain ⟨a, b⟩ := x
    unfold Pending.insert at h
    split at h
    · simpa using h
    · split at h
      · rcases List.mem_cons.1 h with h | h
        · exact .inl h
        · exact .inr (List.mem_cons_of_mem _ h)
      · rcases List.mem_cons.1 h with h | h
        · exact .inr (h ▸ List.mem_cons_self)
        · rcases ih h with h | h
          · exact .inl h
          · exact .inr (List.mem_cons_of_mem _ h)

theorem Pending.mem_of_find {p : Pending} {r : RequesterId} {q : Request} (h : p.find r = some q) :
    (r, q) ∈ p := by
  induction p with
  | nil => simp [Pending.find] at h
  | cons x rest ih =>
    obtain ⟨a, b⟩ := x
    by_cases ha : a = r
    · simp_all [Pending.find]
    · simp only [Pending.find, ha, if_false] at h
      exact List.mem_cons_of_mem _ (ih h)

theorem Pending.wf_cons {e : RequesterId × Request} {p : Pending} :
    Pending.wf (e :: p) ↔ (∀ x ∈ p, e.1 < x.1) ∧ Pending.wf p := by
  simp [Pending.wf]

theorem Pending.erase_wf {p : Pending} (h : p.wf) (r : RequesterId) : (p.erase r).wf := by
  induction p with
  | nil => simp [Pending.erase, Pending.wf]
  | cons x rest ih =>
    obtain ⟨a, b⟩ := x
    rw [Pending.wf_cons] at h
    by_cases ha : a = r
    · simpa only [Pending.erase, ha, if_true] using ih h.2
    · simp only [Pending.erase, ha, if_false]
      exact Pending.wf_cons.2 ⟨fun y hy => h.1 y (Pending.mem_of_mem_erase hy), ih h.2⟩

theorem Pending.insert_wf {p : Pending} (h : p.wf) (r : RequesterId) (q : Request) : (p.insert r q).wf := by
  induction p with
  | nil => simp [Pending.insert, Pending.wf]
  | cons x rest ih =>
    obtain ⟨a, b⟩ := x
    have h' := Pending.wf_cons.1 h
    unfold Pending.insert
    split
    · rename_i hlt
      refine Pending.wf_cons.2 ⟨fun y hy => ?_, h⟩
      rcases List.mem_cons.1 hy with rfl | hy
      · exact hlt
      · exact Nat.lt_trans hlt (h'.1 y hy)
    · split
      · rename_i heq
        subst heq
        exact Pending.wf_cons.2 ⟨h'.1, h'.2⟩
      · rename_i hlt heq
        refine Pending.wf_cons.2 ⟨fun y hy => ?_, ih h'.2⟩
        rcases Pending.mem_of_mem_insert hy with rfl | hy
        · exact Nat.lt_of_le_of_ne (Nat.le_of_not_lt hlt) (Ne.symm heq)
        · exact h'.1 y hy

end Sys2Proof.Machine
end

