-- ==== Sys2Proof/Laws/PerInstr.lean ====
section
/-! SUPPORT. Statements for every instruction as syntax, one lemma per constructor. -/

/-- The operation code in an instruction's request selects that instruction's operation. -/
def Sys2Proof.Laws.OpcodeOfEncoding.Statement (i : Sys2Proof.Instr) : Prop :=
  Sys2Proof.Op.ofCode (Sys2Proof.encodeRequest i).op = some i.op

theorem Sys2Proof.Laws.OpcodeOfEncoding.semEncode (a b c : Sys2Proof.Word) :
    Sys2Proof.Laws.OpcodeOfEncoding.Statement (.semEncode a b c) := rfl

theorem Sys2Proof.Laws.OpcodeOfEncoding.semDecode (a b c : Sys2Proof.Word) :
    Sys2Proof.Laws.OpcodeOfEncoding.Statement (.semDecode a b c) := rfl

theorem Sys2Proof.Laws.OpcodeOfEncoding.sfCompose (a b c : Sys2Proof.Word) :
    Sys2Proof.Laws.OpcodeOfEncoding.Statement (.sfCompose a b c) := rfl

theorem Sys2Proof.Laws.OpcodeOfEncoding.genInit (a b c : Sys2Proof.Word) :
    Sys2Proof.Laws.OpcodeOfEncoding.Statement (.genInit a b c) := rfl

theorem Sys2Proof.Laws.OpcodeOfEncoding.genNext (a b c : Sys2Proof.Word) :
    Sys2Proof.Laws.OpcodeOfEncoding.Statement (.genNext a b c) := rfl
end

