-- ==== Sys2Proof/Laws/Step.lean ====
section
/-! SUPPORT. Everything a step can do, said once: `step_cases`, which later proofs cite instead of
unfolding the machine. -/

namespace Sys2Proof.Machine

/-- The ways a step leads from `s` to a next state. -/
inductive StepCase (s : State) : State → Prop
  /-- A requester's request becomes outstanding. -/
  | issued (r : RequesterId) (q : Request) (hm : s.nextMove = .issue r q) (hr : r < Config.nRequesters)
      (hn : s.pending.find r = none) : StepCase s { s.takeMove with pending := s.pending.insert r q }
  /-- The move names no request or no busy-wait. -/
  | nothing (hm : (∃ r, s.nextMove = .serve r ∧ s.pending.find r = none) ∨
      (s.nextMove = .spin ∧ s.phase = .idle)) : StepCase s s.takeMove
  /-- A generator request waits for the generator unit. -/
  | waits (r : RequesterId) (q : Request) (owner : RequesterId) (u : Word) (n : SeqNo)
      (hm : s.nextMove = .serve r) (hq : s.pending.find r = some q)
      (hg : q.isGenInit = true ∨ q.isGenNext = true) (hp : s.phase = .busy owner u n) :
      StepCase s { s.takeMove with active := r }
  /-- The codec unit or the decoder itself answers. -/
  | coded (r : RequesterId) (q : Request) (x : Response) (hm : s.nextMove = .serve r)
      (hq : s.pending.find r = some q) (hi : q.isGenInit = false) (hg : q.isGenNext = false)
      (hx : (x.st = .ok ∧ q.wellFormed = true) ∨ (x = errorResponse .illegalOp ∧ q.wellFormed = false)) :
      StepCase s ({ s.takeMove with active := r }.respondTo r x)
  /-- A GEN_INIT completes. -/
  | inited (r : RequesterId) (q : Request) (hm : s.nextMove = .serve r) (hq : s.pending.find r = some q)
      (hi : q.isGenInit = true) (hg : q.isGenNext = false) (hp : s.phase = .idle) :
      StepCase s (State.respondTo r ⟨.ok, 0, 0, 0, 0⟩
        { s.takeMove with active := r, node := q.a, last := 0, seq := 0, initDone := true })
  /-- A GEN_NEXT before any GEN_INIT. -/
  | uninit (r : RequesterId) (q : Request) (hm : s.nextMove = .serve r) (hq : s.pending.find r = some q)
      (hg : q.isGenNext = true) (hi : q.isGenInit = false) (hp : s.phase = .idle)
      (hd : s.initDone = false) :
      StepCase s ({ s.takeMove with active := r }.respondTo r (errorResponse .uninit))
  /-- A GEN_NEXT whose first sample differs from LAST completes. -/
  | advanced (r : RequesterId) (q : Request) (hm : s.nextMove = .serve r) (hq : s.pending.find r = some q)
      (hg : q.isGenNext = true) (hi : q.isGenInit = false) (hp : s.phase = .idle)
      (hd : s.initDone = true) (ht : timeDelta s.nextSample s.epoch ≠ s.last) :
      StepCase s ({ s.takeMove with active := r }.takeSample.finishNext r
        (timeDelta s.nextSample s.epoch) 0)
  /-- A GEN_NEXT in the same millisecond completes. -/
  | sameMs (r : RequesterId) (q : Request) (hm : s.nextMove = .serve r) (hq : s.pending.find r = some q)
      (hg : q.isGenNext = true) (hi : q.isGenInit = false) (hp : s.phase = .idle)
      (hd : s.initDone = true) (ht : timeDelta s.nextSample s.epoch = s.last) (hs : s.seq + 1 ≠ 0) :
      StepCase s ({ s.takeMove with active := r }.takeSample.finishNext r s.last (s.seq + 1))
  /-- A GEN_NEXT in the same millisecond whose sequence wraps begins its busy-wait. -/
  | exhausted (r : RequesterId) (q : Request) (hm : s.nextMove = .serve r)
      (hq : s.pending.find r = some q) (hg : q.isGenNext = true) (hi : q.isGenInit = false)
      (hp : s.phase = .idle) (hd : s.initDone = true)
      (ht : timeDelta s.nextSample s.epoch = s.last) (hs : s.seq + 1 = 0) :
      StepCase s { { s.takeMove with active := r }.takeSample with phase := .busy r s.last 0 }
  /-- The busy-wait goes on. -/
  | spun (r : RequesterId) (u : Word) (n : SeqNo) (hm : s.nextMove = .spin) (hp : s.phase = .busy r u n)
      (hu : u.toInt ≤ s.last.toInt) (ht : (timeDelta s.nextSample s.epoch).toInt ≤ s.last.toInt) :
      StepCase s { s.takeMove.takeSample with phase := .busy r (timeDelta s.nextSample s.epoch) n }
  /-- The busy-wait ends. -/
  | finished (r : RequesterId) (u : Word) (n : SeqNo) (hm : s.nextMove = .spin)
      (hp : s.phase = .busy r u n) (hu : u.toInt ≤ s.last.toInt)
      (ht : s.last.toInt < (timeDelta s.nextSample s.epoch).toInt) :
      StepCase s (s.takeMove.takeSample.finishNext r (timeDelta s.nextSample s.epoch) n)
  /-- A busy-wait whose sample is already above LAST, which no run reaches, ends. -/
  | stale (r : RequesterId) (u : Word) (n : SeqNo) (hm : s.nextMove = .spin)
      (hp : s.phase = .busy r u n) (hu : s.last.toInt < u.toInt) :
      StepCase s (s.takeMove.finishNext r u n)
  /-- Reset. -/
  | reset (hm : s.nextMove = .reset) : StepCase s s.takeMove.applyReset

/-- A served legal request runs its instruction. -/
theorem step_serve {s : State} {r : RequesterId} {q : Request} {i : Instr} (hm : s.nextMove = .serve r)
    (hq : s.pending.find r = some q) (hd : decode q = .ok i) :
    step s = exec i { s.takeMove with active := r } := by
  simp [step, performMove, hm, serve, hq, hd]

/-- A served illegal request is answered by the decoder. -/
theorem step_serve_illegal {s : State} {r : RequesterId} {q : Request} {op : BitVec 4}
    (hm : s.nextMove = .serve r) (hq : s.pending.find r = some q)
    (hd : decode q = .error (.illegalOp op)) :
    step s = .next ({ s.takeMove with active := r }.respondTo r (errorResponse .illegalOp)) := by
  simp [step, performMove, hm, serve, hq, hd, State.raiseError_eq]

theorem step_spin {s : State} (hm : s.nextMove = .spin) : step s = .next s.takeMove.spinOnce := by
  simp [step, performMove, hm]

theorem step_reset {s : State} (hm : s.nextMove = .reset) : step s = .next s.takeMove.applyReset := by
  simp [step, performMove, hm]

theorem step_serve_none {s : State} {r : RequesterId} (hm : s.nextMove = .serve r)
    (hq : s.pending.find r = none) : step s = .next s.takeMove := by
  simp [step, performMove, hm, serve, hq]

theorem step_issue {s : State} {r : RequesterId} {q : Request} (hm : s.nextMove = .issue r q) :
    step s = issue r q s.takeMove := by
  simp [step, performMove, hm]

theorem Request.isGenNext_iff {q : Request} : q.isGenNext = true ↔ q.op = 0x9 := by
  simp [Request.isGenNext, Op.code]

theorem Request.isGenInit_iff {q : Request} : q.isGenInit = true ↔ q.op = 0x8 := by
  simp [Request.isGenInit, Op.code]

/-- The inversion of a step: it says all a step can do when it leads to a next state. -/
theorem step_cases {s t : State} (h : step s = .next t) : StepCase s t := by
  cases hm : s.nextMove with
  | issue r q =>
    rw [step_issue hm] at h
    unfold issue at h
    split at h
    · rename_i hr
      cases hn : s.pending.find r with
      | none =>
        rw [State.takeMove_pending, hn] at h
        cases h
        exact .issued r q hm hr hn
      | some q' => rw [State.takeMove_pending, hn] at h; cases h
    · cases h
  | reset =>
    rw [step_reset hm] at h
    cases h
    exact .reset hm
  | spin =>
    rw [step_spin hm] at h
    cases hp : s.phase with
    | idle =>
      rw [State.spinOnce_idle (s := s.takeMove) hp] at h
      cases h
      exact .nothing (.inr ⟨hm, hp⟩)
    | busy r u n =>
      by_cases hu : u.toInt ≤ s.last.toInt
      · by_cases ht : (timeDelta s.nextSample s.epoch).toInt ≤ s.last.toInt
        · rw [State.spinOnce_spun (s := s.takeMove) hp hu ht] at h
          cases h
          exact .spun r u n hm hp hu ht
        · rw [State.spinOnce_finished (s := s.takeMove) hp hu (not_le.1 ht)] at h
          cases h
          exact .finished r u n hm hp hu (not_le.1 ht)
      · rw [State.spinOnce_stale (s := s.takeMove) hp (not_le.1 hu)] at h
        cases h
        exact .stale r u n hm hp (not_le.1 hu)
  | serve r =>
    cases hq : s.pending.find r with
    | none =>
      rw [step_serve_none hm hq] at h
      cases h
      exact .nothing (.inl ⟨r, hm, hq⟩)
    | some q =>
      rcases decode_cases q with ⟨ho, hd⟩ | ⟨ho, hd⟩ | ⟨ho, hd⟩ | ⟨ho, hd⟩ | ⟨ho, hd⟩ | ⟨ho, hd⟩
      · rw [step_serve hm hq hd] at h
        cases h
        exact .coded r q _ hm hq (by simp [Request.isGenInit, Op.code, ho])
          (by simp [Request.isGenNext, Op.code, ho]) (.inl ⟨rfl, by simp [Request.wellFormed, ho]⟩)
      · rw [step_serve hm hq hd] at h
        cases h
        exact .coded r q _ hm hq (by simp [Request.isGenInit, Op.code, ho])
          (by simp [Request.isGenNext, Op.code, ho]) (.inl ⟨rfl, by simp [Request.wellFormed, ho]⟩)
      · rw [step_serve hm hq hd] at h
        cases h
        exact .coded r q _ hm hq (by simp [Request.isGenInit, Op.code, ho])
          (by simp [Request.isGenNext, Op.code, ho]) (.inl ⟨rfl, by simp [Request.wellFormed, ho]⟩)
      · rw [step_serve hm hq hd] at h
        have hi : q.isGenInit = true := Request.isGenInit_iff.2 ho
        have hg : q.isGenNext = false := by simp [Request.isGenNext, Op.code, ho]
        cases hp : s.phase with
        | busy o u n =>
          rw [exec, execGenInit_busy (s := { s.takeMove with active := r }) _ hp] at h
          cases h
          exact .waits r q o u n hm hq (.inl hi) hp
        | idle =>
          rw [exec, execGenInit_idle (s := { s.takeMove with active := r }) _ hp] at h
          cases h
          exact .inited r q hm hq hi hg hp
      · rw [step_serve hm hq hd] at h
        have hg : q.isGenNext = true := Request.isGenNext_iff.2 ho
        have hi : q.isGenInit = false := by simp [Request.isGenInit, Op.code, ho]
        cases hp : s.phase with
        | busy o u n =>
          rw [exec, execGenNext_busy (s := { s.takeMove with active := r }) hp] at h
          cases h
          exact .waits r q o u n hm hq (.inr hg) hp
        | idle =>
          cases hd' : s.initDone with
          | false =>
            rw [exec, execGenNext_uninit (s := { s.takeMove with active := r }) hp hd'] at h
            cases h
            exact .uninit r q hm hq hg hi hp hd'
          | true =>
            rw [exec, execGenNext_allocate (s := { s.takeMove with active := r }) hp hd'] at h
            by_cases ht : timeDelta s.nextSample s.epoch = s.last
            · by_cases hs : s.seq + 1 = 0
              · rw [State.allocate_exhausted (s := { s.takeMove with active := r }) ht hs] at h
                cases h
                exact .exhausted r q hm hq hg hi hp hd' ht hs
              · rw [State.allocate_sameMs (s := { s.takeMove with active := r }) ht hs] at h
                cases h
                exact .sameMs r q hm hq hg hi hp hd' ht hs
            · rw [State.allocate_advanced (s := { s.takeMove with active := r }) ht] at h
              cases h
              exact .advanced r q hm hq hg hi hp hd' ht
      · rw [step_serve_illegal hm hq hd] at h
        cases h
        have hw : ∀ v : BitVec 4, v = 0x8 ∨ v = 0x9 → q.op = v → False := by
          rintro v (rfl | rfl) e <;> simp [Request.wellFormed, e] at ho
        exact .coded r q _ hm hq (by
            cases hb : q.isGenInit with
            | false => rfl
            | true => exact (hw _ (.inl rfl) (Request.isGenInit_iff.1 hb)).elim)
          (by
            cases hb : q.isGenNext with
            | false => rfl
            | true => exact (hw _ (.inr rfl) (Request.isGenNext_iff.1 hb)).elim) (.inr ⟨rfl, ho⟩)

end Sys2Proof.Machine
end

