-- ==== Sys2Proof/Tests/Slice0.lean ====
section
/-! SUPPORT. Tests against words written out from 30_encoding.md and vectors of 95_test_vectors.md, the smoke
test of WellFormed, and a witness for the hypotheses of every statement that has some. -/

namespace Sys2Proof.Tests

open Machine

/-! ### Helpers -/

/-- The next state of an outcome, if there is one. -/
def next? (x : Host.Outcome State Fault Refusal) : Option State :=
  match x with
  | .next t => some t
  | .fault _ => none
  | .refused _ => none

/-- A free generator unit with EPOCH 1000000, as in 95_test_vectors.md, serving requester 0. -/
def gen (node last : Word) (seq : SeqNo) (samples : List Word) : State :=
  { State.reset with
    epoch := 1000000, node := node, last := last, seq := seq, initDone := true, samples := ⟨samples, 0⟩ }

/-- LAST, SEQ and the response after an outcome. -/
def shows (x : Host.Outcome State Fault Refusal) : Option (Word × SeqNo × Option Response) :=
  (next? x).map fun t => (t.last, t.seq, t.rsp.map Delivery.response)

/-- The response after an outcome. -/
def answer (x : Host.Outcome State Fault Refusal) : Option Response :=
  (next? x).bind fun t => t.rsp.map Delivery.response

/-- A request of GEN_NEXT. -/
def nextReq : Request := ⟨0x9, 0, 0, 0⟩

/-- A state of the invariant: reset, then a GEN_INIT of node 5, with requests outstanding and moves to come. -/
def started (pending : Pending) (moves : List Move) : State :=
  { State.reset with initDone := true, node := 5, pending := pending, moves := ⟨moves, 0⟩ }

/-- The same with requester 0's GEN_NEXT in its busy-wait. -/
def spinning (pending : Pending) (moves : List Move) : State :=
  { started ((0, nextReq) :: pending) moves with last := 7, seq := 4095, phase := .busy 0 7 0 }

/-! ### Decoding: each constructor's word, and WellFormed -/

/-- OP 0000, then A, B, C (30_encoding.md R60, R62). -/
theorem test_decode_semEncode :
    decodeWord (0#4 ++ 0x4F48D36679#64 ++ 0x32#64 ++ 0x64#64) = .ok (.semEncode 0x4F48D36679 0x32 0x64) := by
  decide

/-- OP 0001. -/
theorem test_decode_semDecode :
    decodeWord (0b0001#4 ++ 0x27A469B33C80C864#64 ++ 0#64 ++ 0#64) = .ok (.semDecode 0x27A469B33C80C864 0 0) := by
  decide

/-- OP 0010. -/
theorem test_decode_sfCompose :
    decodeWord (0b0010#4 ++ 0x3E8#64 ++ 5#64 ++ 7#64) = .ok (.sfCompose 0x3E8 5 7) := by decide

/-- OP 1000. -/
theorem test_decode_genInit :
    decodeWord (0b1000#4 ++ 5#64 ++ 0x77#64 ++ 0x88#64) = .ok (.genInit 5 0x77 0x88) := by decide

/-- OP 1001. -/
theorem test_decode_genNext :
    decodeWord (0b1001#4 ++ 0#64 ++ 0#64 ++ 0#64) = .ok (.genNext 0 0 0) := by decide

/-- The opcode table's own numbering: its match in bits 3 to 0. -/
theorem test_decode_table_words :
    decodeTableWord 8 0x0 = some (.semEncode 0 0 0) ∧ decodeTableWord 8 0x1 = some (.semDecode 0 0 0) ∧
    decodeTableWord 8 0x2 = some (.sfCompose 0 0 0) ∧ decodeTableWord 8 0x8 = some (.genInit 0 0 0) ∧
    decodeTableWord 8 0x9 = some (.genNext 0 0 0) ∧ decodeTableWord 8 0x3 = none := by decide

/-- Every illegal code of 30_encoding.md R63 is refused by the check and by the decoder, by name. -/
theorem test_wellFormed_refuses_illegal_codes :
    ∀ op ∈ ([0x3, 0x4, 0x5, 0x6, 0x7, 0xA, 0xB, 0xC, 0xD, 0xE, 0xF] : List (BitVec 4)),
      Request.wellFormed ⟨op, 1, 2, 3⟩ = false ∧ decode ⟨op, 1, 2, 3⟩ = .error (.illegalOp op) := by decide

theorem test_wellFormed_accepts_legal_codes :
    ∀ op ∈ ([0x0, 0x1, 0x2, 0x8, 0x9] : List (BitVec 4)), Request.wellFormed ⟨op, 1, 2, 3⟩ = true := by
  decide

/-! ### The operations -/

/-- V1 and V3 (E14): the clamp. -/
theorem test_semEncode_clamp :
    answer (exec (.semEncode 0x4F48D36679 0x2032 0x464) State.reset) = some ⟨.ok, 0x27A469B33C80C864, 0, 0, 0⟩ := by
  decide

/-- E6: object ID bit 40 sets bit 63. -/
theorem test_semEncode_top_bit :
    answer (exec (.semEncode 0x10000000000 0 0) State.reset) = some ⟨.ok, 0x8000000000000000, 0, 0, 0⟩ := by
  decide

/-- V2. -/
theorem test_semDecode_fields :
    answer (exec (.semDecode 0x27A469B33C800E75 1 2) State.reset) =
      some ⟨.ok, 0x4F48D36679, 3, 0x275, 0xE75⟩ := by decide

/-- X2: no sign extension anywhere. -/
theorem test_semDecode_all_ones :
    answer (exec (.semDecode 0xFFFFFFFFFFFFFFFF 0 0) State.reset) =
      some ⟨.ok, 0x1FFFFFFFFFF, 0x1FFF, 0x3FF, 0x7FFFFF⟩ := by decide

/-- S12. -/
theorem test_sfCompose_fields :
    answer (exec (.sfCompose 0x3E8 5 7) State.reset) = some ⟨.ok, 0xFA005007, 0, 0, 0⟩ := by decide

/-- S8 and S7 together: node 1024 spills into the time field, time bit 42 is lost. -/
theorem test_sfCompose_no_masks :
    answer (exec (.sfCompose 0x40000000000 0x400 0x1000) State.reset) = some ⟨.ok, 0x401000, 0, 0, 0⟩ := by
  decide

/-- I2: a second GEN_INIT starts afresh. -/
theorem test_genInit_restarts :
    (next? (exec (.genInit 9 0x77 0x88) (gen 5 1000 7 []))).map
      (fun t => (t.node, t.last, t.seq, t.initDone)) = some (9, 0, 0, true) := by decide

/-- N5: the clock went back one millisecond. -/
theorem test_genNext_backward_clock :
    shows (exec (.genNext 0 0 0) (gen 5 1000 1 [1000999])) =
      some (999, 0, some ⟨.ok, 0xF9C05000, 0, 0, 0⟩) := by decide

/-- N7: the last sequence number of the millisecond. -/
theorem test_genNext_last_sequence :
    shows (exec (.genNext 0 0 0) (gen 7 5 4094 [1000005])) =
      some (5, 4095, some ⟨.ok, 0x1407FFF, 0, 0, 0⟩) := by decide

/-- N8, its third sample: a backward sample prolongs the wait. -/
theorem test_spin_backward_sample_waits :
    (next? (.next (State.spinOnce { gen 7 5 4095 [1000004] with phase := .busy 3 5 0 }))).map
      (fun t => (t.phase, t.last, t.seq, t.rsp)) = some (.busy 3 4 0, 5, 4095, none) := by decide

/-- N8, its last sample. -/
theorem test_spin_completes :
    shows (.next (State.spinOnce { gen 7 5 4095 [1000006] with phase := .busy 3 4 0 })) =
      some (6, 0, some ⟨.ok, 0x1807000, 0, 0, 0⟩) := by decide

/-- N1, and the host's way of placing a request: GEN_NEXT as the first instruction after reset. -/
theorem test_fetched_genNext_after_reset :
    answer (step (State.reset.withFetchWord 8 0x9)) = some ⟨.uninit, 0, 0, 0, 0⟩ := by decide

/-- L4: an illegal code is answered while a GEN_NEXT spins. -/
theorem test_illegal_during_busy_wait :
    (next? (step (spinning [(1, ⟨0xF, 0, 0, 0⟩)] [.serve 1]))).map (fun t => (t.rsp, t.phase)) =
      some (some ⟨1, .illegalOp, 0, 0, 0, 0⟩, .busy 0 7 0) := by decide

/-! ### Witnesses: for each statement with hypotheses, a state and operands that meet them -/

theorem started_inv (pending : Pending) (moves : List Move) (hw : Pending.wf pending)
    (hr : ∀ p ∈ pending, p.1 < Config.nRequesters) : (started pending moves).Inv where
  pendingWf := hw
  requesters := hr
  epochFixed := rfl
  untouched := nofun
  spinning := nofun

theorem zero_isRequester : 0 < Config.nRequesters := Nat.succ_pos _

theorem only_zero (q : Request) : ∀ p ∈ [((0 : RequesterId), q)], p.1 < Config.nRequesters := by
  intro p hp
  rw [List.mem_singleton] at hp
  subst hp
  exact zero_isRequester

theorem started_one_inv (q : Request) (moves : List Move) : (started [(0, q)] moves).Inv :=
  started_inv _ _ (List.pairwise_singleton _ _) (only_zero q)

theorem spinning_inv (moves : List Move) : (spinning [] moves).Inv where
  pendingWf := List.pairwise_singleton _ _
  requesters := only_zero nextReq
  epochFixed := rfl
  untouched := nofun
  spinning := by
    intro r t seq h
    cases h
    exact ⟨rfl, rfl, rfl, le_refl _, nextReq, rfl, rfl⟩

/-- A GEN_NEXT at SEQ 0 completes whatever the clock returns. -/
theorem started_next_completes (moves : List Move) :
    ∃ t x, step (started [(0, nextReq)] (.serve 0 :: moves)) = .next t ∧ x.st = .ok ∧
      answered (started [(0, nextReq)] (.serve 0 :: moves)) t = some (nextReq, x) := by
  let s := started [(0, nextReq)] (.serve 0 :: moves)
  let u : State := { s.takeMove with active := 0 }
  have hs : step s = .next u.allocate :=
    (step_serve (s := s) (r := 0) (q := nextReq) rfl rfl rfl).trans
      (execGenNext_allocate (s := u) rfl rfl)
  by_cases ht : timeDelta u.nextSample u.epoch = u.last
  · rw [State.allocate_sameMs ht (show (0 : SeqNo) + 1 ≠ 0 by decide)] at hs
    exact ⟨_, _, hs, rfl, rfl⟩
  · rw [State.allocate_advanced ht] at hs
    exact ⟨_, _, hs, rfl, rfl⟩

theorem witness_CodecNeverWaits :
    (Instr.semDecode 9 0 0).op.unit = .codec ∧
    (spinning [(1, ⟨0x1, 9, 0, 0⟩)] [.serve 1]).nextMove = .serve 1 ∧
    Pending.find (spinning [(1, ⟨0x1, 9, 0, 0⟩)] [.serve 1]).pending 1 = some ⟨0x1, 9, 0, 0⟩ ∧
    decode ⟨0x1, 9, 0, 0⟩ = .ok (.semDecode 9 0 0) := ⟨rfl, rfl, rfl, rfl⟩

/-- The largest global type ID. -/
theorem witness_EncodingPlacesAGlobalTypeId : (0x7FFFFF : Word).toNat < 2 ^ 23 := by decide

/-- The largest fields, for SfComposeComposesWithoutMasks, ComposedFieldsReadBack and
ComposeKeeps42TimeBits. -/
theorem witness_fields_in_range :
    (0x1FFFFFFFFFF : Word).toNat < 2 ^ 41 ∧ (1023 : Word).toNat < 1024 ∧ (4095 : Word).toNat < 4096 := by
  simp

/-- For GenInitStartsTheGeneratorAfresh, GenNextBeforeInitAnswersUninit and FirstAllocationAfterInit. -/
theorem witness_idle_uninitialised : State.reset.phase = .idle ∧ State.reset.initDone = false := ⟨rfl, rfl⟩

/-- Both clauses of FirstAllocationAfterInit: a sample at EPOCH, and one above it. -/
theorem witness_FirstAllocationAfterInit :
    (gen 0 0 0 [1000000]).nextSample = (gen 0 0 0 [1000000]).epoch ∧
    (gen 0 0 0 [1000001]).nextSample ≠ (gen 0 0 0 [1000001]).epoch := by decide

theorem witness_GeneratorRequestsWaitWhileBusy : (spinning [] []).phase = .busy 0 7 0 := rfl

theorem witness_GenNextOnAnotherMillisecond :
    (gen 5 1000 1 [1000999]).phase = .idle ∧ (gen 5 1000 1 [1000999]).initDone = true ∧
    (gen 5 1000 1 [1000999]).nextSample - (gen 5 1000 1 [1000999]).epoch ≠ (gen 5 1000 1 [1000999]).last := by
  decide

theorem witness_GenNextInTheSameMillisecond :
    (gen 7 5 4094 [1000005]).phase = .idle ∧ (gen 7 5 4094 [1000005]).initDone = true ∧
    (gen 7 5 4094 [1000005]).nextSample - (gen 7 5 4094 [1000005]).epoch = (gen 7 5 4094 [1000005]).last ∧
    (gen 7 5 4094 [1000005]).seq.toNat < 4095 := by decide

theorem witness_GenNextWaitsWhenTheSequenceIsSpent :
    (gen 7 5 4095 [1000005]).phase = .idle ∧ (gen 7 5 4095 [1000005]).initDone = true ∧
    (gen 7 5 4095 [1000005]).nextSample - (gen 7 5 4095 [1000005]).epoch = (gen 7 5 4095 [1000005]).last ∧
    (gen 7 5 4095 [1000005]).seq.toNat = 4095 := by decide

/-- A busy-wait on the samples of N8, with requester 0 waiting. -/
def waiting (samples : List Word) : State :=
  { gen 7 5 4095 samples with
    phase := .busy 0 5 0, pending := [(0, nextReq)], moves := ⟨[.spin, .spin], 0⟩ }

/-- Both clauses of BusyWaitEndsAboveLast, at LAST itself and one above it. -/
theorem witness_BusyWaitEndsAboveLast :
    (waiting [1000005]).nextMove = .spin ∧ (waiting [1000005]).phase = .busy 0 5 0 ∧
    (5 : Word).toInt ≤ (waiting [1000005]).last.toInt ∧
    ((waiting [1000005]).nextSample - (waiting [1000005]).epoch).toInt ≤ (waiting [1000005]).last.toInt ∧
    (waiting [1000006]).last.toInt < ((waiting [1000006]).nextSample - (waiting [1000006]).epoch).toInt := by
  decide

/-- Both clauses of GenNextRunsAsItsPseudocode: N1, and N8 with its four samples. -/
theorem witness_GenNextRunsAsItsPseudocode :
    nextReq.op = 0x9 ∧
    (State.reset.presentRequest nextReq).initDone = false ∧
    (State.reset.presentRequest nextReq).nextMove = .serve 0 ∧
    Pending.find (State.reset.presentRequest nextReq).pending 0 = some nextReq ∧
    allocateFrom 5 4095 1000000 [1000005, 1000005, 1000004, 1000006] = some (6, 0, 4) ∧
    allocateFrom 5 4094 1000000 [1000005] = some (5, 4095, 1) := by decide

theorem witness_BusyWaitCompletesIffTheClockPassesLast :
    (waiting [1000005, 1000006]).phase = .busy 0 5 0 ∧
    (5 : Word).toInt ≤ (waiting [1000005, 1000006]).last.toInt ∧
    Pending.find (waiting [1000005, 1000006]).pending 0 = some nextReq ∧ nextReq.op = 0x9 ∧
    AlongRun NoReset 2 (waiting [1000005, 1000006]) :=
  ⟨rfl, le_refl _, rfl, rfl, _, rfl, nofun, _, rfl, nofun, trivial⟩

/-- Three requesters' GEN_NEXTs served one after another. -/
def queue (last : Word) (seq : SeqNo) (samples : List Word) : State :=
  { gen 5 last seq samples with
    pending := [(0, nextReq), (1, nextReq), (2, nextReq)]
    moves := ⟨[.serve 1, .serve 0, .serve 2], 0⟩ }

theorem queue_noRestart {s t : State} (hm : s.nextMove ≠ .reset) {q : Request} {x : Response}
    (ha : answered s t = some (q, x)) (hq : q.isGenInit = false) : NoRestart s t :=
  ⟨hm, fun q' x' h => by rw [ha] at h; cases h; exact hq⟩

theorem witness_EveryAllocationChangesLastOrSeq :
    ∃ t, step (queue 1000 1 [1001000]) = .next t ∧
      allocated (queue 1000 1 [1001000]) t = some 0xFA005002 := ⟨_, rfl, rfl⟩

theorem witness_OneMillisecondGivesAtMost4096 :
    AlongRun (fun s t => NoRestart s t ∧ t.last = s.last) 2 (queue 1000 4093 [1001000, 1001000]) :=
  ⟨_, rfl, ⟨queue_noRestart nofun rfl rfl, rfl⟩, _, rfl, ⟨queue_noRestart nofun rfl rfl, rfl⟩, trivial⟩

theorem witness_AllocationsStrictlyIncrease :
    (queue 0 0 [1000000, 1000001, 1000001]).initDone = true ∧
    (queue 0 0 [1000000, 1000001, 1000001]).phase = .idle ∧
    (queue 0 0 [1000000, 1000001, 1000001]).node.toNat < 1024 ∧
    AlongRun NoRestart 3 (queue 0 0 [1000000, 1000001, 1000001]) ∧
    samplesTaken 3 (queue 0 0 [1000000, 1000001, 1000001]) = [1000000, 1000001, 1000001] ∧
    ([1000000, 1000001, 1000001] : List Word).Pairwise
      (fun x y => (x - 1000000).toNat ≤ (y - 1000000).toNat) :=
  ⟨rfl, rfl, by decide, ⟨_, rfl, queue_noRestart nofun rfl rfl, _, rfl, queue_noRestart nofun rfl rfl,
    _, rfl, queue_noRestart nofun rfl rfl, trivial⟩, by decide, by decide⟩

/-- Both parts of StepRunsTheDecodedInstruction. -/
theorem witness_StepRunsTheDecodedInstruction :
    (started [(0, nextReq)] [.serve 0]).nextMove = .serve 0 ∧
    Pending.find (started [(0, nextReq)] [.serve 0]).pending 0 = some nextReq ∧
    decode nextReq = .ok (.genNext 0 0 0) ∧
    decodeTableWord 196 0x58 = some (.genInit 5 0 0) ∧ State.reset.phase = .idle := by decide

/-- The first and the last illegal code. -/
theorem witness_IllegalCodesAreAnsweredAtOnce :
    ∀ op ∈ ([0x3, 0xF] : List (BitVec 4)),
      (started [(0, ⟨op, 0, 0, 0⟩)] [.serve 0]).nextMove = .serve 0 ∧
      Pending.find (started [(0, ⟨op, 0, 0, 0⟩)] [.serve 0]).pending 0 = some ⟨op, 0, 0, 0⟩ ∧
      op ∈ ([0x3, 0x4, 0x5, 0x6, 0x7, 0xA, 0xB, 0xC, 0xD, 0xE, 0xF] : List (BitVec 4)) := by decide

/-- For TopOpBitSelectsTheUnit: one code of each unit. -/
theorem witness_TopOpBitSelectsTheUnit :
    decode ⟨0x2, 0, 0, 0⟩ = .ok (.sfCompose 0 0 0) ∧ decode ⟨0x8, 0, 0, 0⟩ = .ok (.genInit 0 0 0) := by decide

/-- For DecodeOfEncodeIsTheInstruction and EncodeOfDecodeIsTheWord. -/
theorem witness_encoding :
    (Instr.semEncode 1 2 3).wellFormed = true ∧
    decodeWord (0#4 ++ 1#64 ++ 2#64 ++ 3#64) = .ok (.semEncode 1 2 3) := by decide

/-- For OnlyIllegalCodesAndEarlyNextsFail, EachResponseAnswersOneRequest, RegistersAreWrittenOnlyAtCompletion
and ErrorResponsesHaveNoEffect: an illegal code, a codec request and a GEN_INIT are answered. -/
theorem witness_answers :
    ∀ q ∈ ([⟨0x3, 0, 0, 0⟩, ⟨0x1, 9, 0, 0⟩, ⟨0x8, 5, 0, 0⟩] : List Request), ∀ moves,
      (started [(0, q)] (.serve 0 :: moves)).Inv ∧
      (started [(0, q)] (.serve 0 :: moves)).nextMove ≠ .reset ∧
      ∃ t x, step (started [(0, q)] (.serve 0 :: moves)) = .next t ∧ t.rsp = some ⟨0, x⟩ ∧
        answered (started [(0, q)] (.serve 0 :: moves)) t = some (q, x) ∧
        (x.st = .illegalOp ↔ q.op = 0x3) := by
  intro q hq moves
  refine ⟨started_one_inv q _, nofun, ?_⟩
  simp only [List.mem_cons, List.not_mem_nil, or_false] at hq
  rcases hq with rfl | rfl | rfl
  · exact ⟨_, _, rfl, rfl, rfl, ⟨fun _ => rfl, fun _ => rfl⟩⟩
  · exact ⟨_, _, rfl, rfl, rfl, ⟨nofun, fun h => absurd h (by decide)⟩⟩
  · exact ⟨_, _, rfl, rfl, rfl, ⟨nofun, fun h => absurd h (by decide)⟩⟩

/-- The same for a GEN_NEXT that completes. -/
theorem witness_answers_next (moves : List Move) :
    (started [(0, nextReq)] (.serve 0 :: moves)).Inv ∧
    (started [(0, nextReq)] (.serve 0 :: moves)).nextMove ≠ .reset ∧
    ∃ t x, step (started [(0, nextReq)] (.serve 0 :: moves)) = .next t ∧ x.st = .ok ∧
      answered (started [(0, nextReq)] (.serve 0 :: moves)) t = some (nextReq, x) :=
  ⟨started_one_inv _ _, nofun, started_next_completes moves⟩

/-- Reset with a GEN_NEXT placed: a state of the invariant in which it answers UNINIT, for
OnlyIllegalCodesAndEarlyNextsFail and ErrorResponsesHaveNoEffect. -/
theorem witness_answers_uninit :
    (State.reset.presentRequest nextReq).Inv ∧
    ∃ t x, step (State.reset.presentRequest nextReq) = .next t ∧ x.st = .uninit ∧ t.rsp = some ⟨0, x⟩ ∧
      answered (State.reset.presentRequest nextReq) t = some (nextReq, x) :=
  ⟨⟨List.pairwise_singleton _ _, only_zero nextReq, rfl, fun _ => ⟨rfl, rfl, rfl⟩, nofun⟩,
    _, _, rfl, rfl, rfl, rfl⟩

/-- A step that answers nothing, and a reset, for the other clauses of EachResponseAnswersOneRequest and
RegistersAreWrittenOnlyAtCompletion, for EveryStepKeepsTheInvariant and ResetDiscardsEveryRequest. -/
theorem witness_spinning_serve_and_reset :
    (spinning [] [.serve 0]).Inv ∧
    (∃ t, step (spinning [] [.serve 0]) = .next t ∧ answered (spinning [] [.serve 0]) t = none) ∧
    (spinning [] [.reset]).Inv ∧ (spinning [] [.reset]).nextMove = .reset ∧
    ∃ t, step (spinning [] [.reset]) = .next t :=
  ⟨spinning_inv _, ⟨_, rfl, rfl⟩, spinning_inv _, rfl, _, rfl⟩

/-- For OneGeneratorOperationAtATime: a busy-wait's turns, and its completion, which answers its owner. -/
theorem witness_OneGeneratorOperationAtATime :
    (waiting [1000005]).phase = .busy 0 5 0 ∧ (waiting [1000005]).nextMove ≠ .reset ∧
    (∃ t, step (waiting [1000005]) = .next t) ∧
    ∃ t d x, step (waiting [1000006]) = .next t ∧ t.rsp = some d ∧
      answered (waiting [1000006]) t = some (nextReq, x) :=
  ⟨rfl, nofun, ⟨_, rfl⟩, _, _, _, rfl, rfl, rfl⟩

/-- For AnyWaitingRequestMayBeAcceptedNext: both generator codes waiting at once. -/
theorem witness_AnyWaitingRequestMayBeAcceptedNext :
    (started [(0, nextReq), (1, ⟨0x8, 5, 0, 0⟩)] []).phase = .idle ∧
    Pending.find (started [(0, nextReq), (1, ⟨0x8, 5, 0, 0⟩)] []).pending 0 = some nextReq ∧
    Pending.find (started [(0, nextReq), (1, ⟨0x8, 5, 0, 0⟩)] []).pending 1 = some ⟨0x8, 5, 0, 0⟩ :=
  ⟨rfl, rfl, rfl⟩

/-- The three clauses of IssuingARequestMakesItOutstanding, the last at the first number that is no
requester's. -/
theorem witness_IssuingARequestMakesItOutstanding :
    (started [] [.issue 0 nextReq]).nextMove = .issue 0 nextReq ∧ 0 < Config.nRequesters ∧
    Pending.find (started [] [.issue 0 nextReq]).pending 0 = none ∧
    Pending.find (started [(0, nextReq)] [.issue 0 nextReq]).pending 0 ≠ none ∧
    (started [] [.issue Config.nRequesters nextReq]).nextMove = .issue Config.nRequesters nextReq ∧
    Config.nRequesters ≤ Config.nRequesters :=
  ⟨rfl, zero_isRequester, rfl, nofun, rfl, le_refl _⟩

/-- For OnlyTheEnvironmentCanStopTheModel: both faults occur. -/
theorem witness_OnlyTheEnvironmentCanStopTheModel :
    step (started [(0, nextReq)] [.issue 0 nextReq]) = .fault (.secondRequest 0) ∧
    step (started [] [.issue Config.nRequesters nextReq]) = .fault (.noSuchRequester Config.nRequesters) := by
  constructor
  · rw [step_issue rfl]
    simp only [issue, if_pos zero_isRequester]
    rfl
  · rw [step_issue rfl]
    simp only [issue, if_neg (Nat.lt_irrefl _)]

/-- For NoIdentifierBeforeAGenInit: a run of an early GEN_NEXT and a reset. -/
theorem witness_NoIdentifierBeforeAGenInit :
    ∃ s : State, s.Inv ∧ s.initDone = false ∧
      AlongRun (fun s t => ∀ q x, answered s t = some (q, x) → q.isGenInit = false) 2 s :=
  ⟨{ State.reset with pending := [(0, nextReq)], moves := ⟨[.serve 0, .reset], 0⟩ },
    ⟨List.pairwise_singleton _ _, only_zero nextReq, rfl, fun _ => ⟨rfl, rfl, rfl⟩, nofun⟩, rfl,
    _, rfl, fun q x h => by cases h; rfl, _, rfl, fun q x h => (by cases h), trivial⟩

/-- For LegalProgramsCommitNoFault. -/
theorem witness_LegalProgramsCommitNoFault :
    (started [(0, ⟨0x1, 9, 0, 0⟩)] [.serve 0]).Inv ∧
    (started [(0, ⟨0x1, 9, 0, 0⟩)] [.serve 0]).initDone = true ∧
    (∀ e ∈ (started [(0, ⟨0x1, 9, 0, 0⟩)] [.serve 0]).pending, e.2.wellFormed = true) ∧
    AlongRun (fun s _ => s.nextMove ≠ .reset ∧ ∀ r q, s.nextMove = .issue r q → q.wellFormed = true) 1
      (started [(0, ⟨0x1, 9, 0, 0⟩)] [.serve 0]) :=
  ⟨started_one_inv _ _, rfl, by decide, _, rfl, ⟨nofun, nofun⟩, trivial⟩

/-- For ASpinningRunHasNotEnded. -/
theorem witness_ASpinningRunHasNotEnded :
    (spinning [] []).Inv ∧ (spinning [] []).phase = .busy 0 7 0 := ⟨spinning_inv _, rfl⟩

end Sys2Proof.Tests
end

section
/-! The state's own statements (10_state.md): the codec unit's single effect, and the reset values. -/

namespace Sys2Proof.Machine

/-- The codec unit's only effect is one OK response, the same in every state (10_state.md R34,
20_memory.md R47). -/
theorem exec_codec_responds {i : Instr} (hi : i.op.unit = .codec) :
    ∃ x : Response, x.st = .ok ∧ ∀ s : State, exec i s = .next (s.respondTo s.active x) := by
  cases i with
  | semEncode a b c => exact ⟨⟨.ok, packSemantic a b c, 0, 0, 0⟩, rfl, fun _ => rfl⟩
  | semDecode a b c =>
    exact ⟨⟨.ok, semanticObject a, semanticNode a, semanticType a, semanticGlobalType a⟩, rfl,
      fun _ => rfl⟩
  | sfCompose a b c => exact ⟨⟨.ok, composeClassic a b c, 0, 0, 0⟩, rfl, fun _ => rfl⟩
  | genInit a b c => cases hi
  | genNext a b c => cases hi

/-- Settles O6: the step runs the served instruction (`step_serve`), and a codec instruction does nothing
but respond (`exec_codec_responds`), whatever PHASE is. -/
theorem codecNeverWaitsAndHasNoSideEffect : Obligations.CodecNeverWaitsAndHasNoSideEffect := by
  intro i hi
  obtain ⟨x, hok, hexec⟩ := exec_codec_responds hi
  exact ⟨x, hok, fun _ _ _ hm hq hd => (step_serve hm hq hd).trans (hexec _)⟩

/-- Settles O52, field by field of the reset state. -/
theorem resetValues : Obligations.ResetValues := ⟨rfl, rfl, rfl, rfl, rfl, rfl, rfl⟩

end Sys2Proof.Machine
end

section
/-! The encoding's own statements (30_encoding.md): decoding is by OP alone, OP[3] selects the unit, and the
decoder itself answers an illegal code. -/

namespace Sys2Proof

open Machine

/-! ### The operation codes -/

theorem Op.ofCode_eq_some_iff {code : BitVec 4} {o : Op} : Op.ofCode code = some o ↔ code = o.code := by
  revert code
  cases o <;> decide

theorem Op.ofCode_eq_none_iff {code : BitVec 4} :
    Op.ofCode code = none ↔ code ≠ 0x0 ∧ code ≠ 0x1 ∧ code ≠ 0x2 ∧ code ≠ 0x8 ∧ code ≠ 0x9 := by
  revert code
  decide

theorem Op.code_unitBit_iff_generator (o : Op) : o.code.getLsbD 3 = true ↔ o.unit = .generator := by
  cases o <;> decide

theorem Op.code_unitBit_iff_codec (o : Op) : o.code.getLsbD 3 = false ↔ o.unit = .codec := by
  cases o <;> decide

/-- A code is its unit's bit above its low three bits, and different operations have different codes. -/
theorem Op.eq_of_unit_of_lowBits {o o' : Op} (hu : o.unit = o'.unit)
    (hl : o.code.extractLsb' 0 3 = o'.code.extractLsb' 0 3) : o = o' := by
  have hcode : ∀ v w : BitVec 4, v.getLsbD 3 = w.getLsbD 3 → v.extractLsb' 0 3 = w.extractLsb' 0 3 → v = w := by
    decide
  have htop : o.code.getLsbD 3 = o'.code.getLsbD 3 := by
    rw [Bool.eq_iff_iff, Op.code_unitBit_iff_generator, Op.code_unitBit_iff_generator, hu]
  exact Option.some_injective _
    ((Op.ofCode_eq_some_iff.2 rfl).symm.trans (Op.ofCode_eq_some_iff.2 (hcode _ _ htop hl)))

/-! ### The decoder -/

@[simp] theorem Instr.ofOp_op (o : Op) (a b c : Word) : (Instr.ofOp o a b c).op = o := by
  cases o <;> rfl

/-- The decoder is a map of the code: the operands pass through unread. -/
theorem decode_eq_ok_iff {q : Request} {i : Instr} :
    decode q = .ok i ↔ q.op = i.op.code ∧ i = .ofOp i.op q.a q.b q.c := by
  rw [← Op.ofCode_eq_some_iff]
  cases h : Op.ofCode q.op with
  | none => simp [decode, h]
  | some o =>
    simp only [decode, h, Except.ok.injEq, Option.some.injEq]
    constructor
    · rintro rfl
      simp
    · rintro ⟨rfl, hi⟩
      exact hi.symm

theorem decode_eq_illegalOp_iff {q : Request} :
    decode q = .error (.illegalOp q.op) ↔ Op.ofCode q.op = none := by
  cases h : Op.ofCode q.op <;> simp [decode, h]

theorem decode_illegalOp_or_ok (q : Request) :
    decode q = .error (.illegalOp q.op) ∨ ∃ i : Instr, decode q = .ok i := by
  cases h : Op.ofCode q.op with
  | none => exact .inl (decode_eq_illegalOp_iff.2 h)
  | some o => exact .inr ⟨.ofOp o q.a q.b q.c, by simp [decode, h]⟩

/-- The eleven codes as R63 writes them out are those the decoder rejects. -/
theorem decode_of_mem_illegalCodes {q : Request}
    (h : q.op ∈ ([0x3, 0x4, 0x5, 0x6, 0x7, 0xA, 0xB, 0xC, 0xD, 0xE, 0xF] : List (BitVec 4))) :
    decode q = .error (.illegalOp q.op) :=
  have hnone : ∀ v ∈ ([0x3, 0x4, 0x5, 0x6, 0x7, 0xA, 0xB, 0xC, 0xD, 0xE, 0xF] : List (BitVec 4)),
      Op.ofCode v = none := by decide
  decode_eq_illegalOp_iff.2 (hnone _ h)

/-! ### The statements -/

/-- Settles O33: the decoder rejects the code, so the step is its error response (`step_serve_illegal`),
which changes no register and takes the requester's request out (`Pending.find_erase_self`). -/
theorem illegalCodesAreAnsweredAtOnce : Obligations.IllegalCodesAreAnsweredAtOnce := by
  intro s r q hm hq hop
  exact ⟨step_serve_illegal hm hq (decode_of_mem_illegalCodes hop), Pending.find_erase_self _ _⟩

/-- Settles O34: each clause is `decode_eq_ok_iff` at its instruction, whose operands are the request's. -/
theorem decodingIsByOpAlone : Obligations.DecodingIsByOpAlone := by
  intro q
  have clause : ∀ o : Op, decode q = .ok (.ofOp o q.a q.b q.c) ↔ q.op = o.code := by
    simp [decode_eq_ok_iff]
  exact ⟨clause .semEncode, clause .semDecode, clause .sfCompose, clause .genInit, clause .genNext,
    decode_eq_illegalOp_iff.trans Op.ofCode_eq_none_iff, decode_illegalOp_or_ok q⟩

/-- Settles O35: a legal request's OP is its operation's code, so the claim is one about the codes. -/
theorem topOpBitSelectsTheUnit : Obligations.TopOpBitSelectsTheUnit := by
  intro q q' i i' hd hd'
  obtain ⟨hop, -⟩ := decode_eq_ok_iff.1 hd
  obtain ⟨hop', -⟩ := decode_eq_ok_iff.1 hd'
  rw [hop, hop']
  exact ⟨i.op.code_unitBit_iff_codec, i.op.code_unitBit_iff_generator, Op.eq_of_unit_of_lowBits⟩

end Sys2Proof
end

section
/-! The generator's own statements (40_generator.md): SF_COMPOSE, and a whole GEN_NEXT against its pseudocode.
The states of a GEN_NEXT are written as functions of the state `s` that it found and of the last sample
taken; one lemma per step of the machine and one inversion per function of the pseudocode meet in an
induction over the samples. -/

namespace Sys2Proof.Machine

/-- SF_COMPOSE does nothing but respond (40_generator.md R80). -/
theorem exec_sfCompose (a b c : Word) (s : State) :
    exec (.sfCompose a b c) s = .next (s.respondTo s.active ⟨.ok, composeClassic a b c, 0, 0, 0⟩) := rfl

/-- Settles O5: the code is SF_COMPOSE's (`decode_eq_ok_iff`), and the formula is `composeClassic` as it
stands, with no mask around it (`exec_sfCompose`). -/
theorem sfComposeComposesWithoutMasks : Obligations.SfComposeComposesWithoutMasks := by
  intro a b c s
  exact ⟨decode_eq_ok_iff.2 ⟨rfl, rfl⟩, exec_sfCompose a b c s⟩

/-! ### The states of a GEN_NEXT -/

/-- `s` with its move taken and the decoder at work on requester `r`'s request. -/
def State.serving (s : State) (r : RequesterId) : State := { s.takeMove with active := r }

/-- `s` with the sample `x` taken for requester `r`, the samples `xs` and the moves `ms` still to come. -/
def State.sampled (s : State) (r : RequesterId) (x : Word) (xs : List Word) (ms : List Move) : State :=
  { s with
    active := r
    samples := ⟨xs, s.samples.drawn⟩
    moves := ⟨ms, s.moves.drawn⟩
    clk := some x
    rsp := none }

/-- `s` in the busy-wait of requester `r`'s GEN_NEXT, after the sample `x`. -/
def State.waitingAt (s : State) (r : RequesterId) (x : Word) (xs : List Word) (ms : List Move) : State :=
  { s.sampled r x xs ms with phase := .busy r (timeDelta x s.epoch) 0 }

/-- `s` after requester `r`'s GEN_NEXT has completed on the sample `x`. -/
def State.completedAt (s : State) (r : RequesterId) (x : Word) (seq : SeqNo) (xs : List Word)
    (ms : List Move) : State :=
  (s.sampled r x xs ms).finishNext r (timeDelta x s.epoch) seq

/-! ### The step that serves a GEN_NEXT -/

theorem decode_genNext {q : Request} (hop : q.op = 0x9) : decode q = .ok (.genNext q.a q.b q.c) :=
  decode_eq_ok_iff.2 ⟨hop, rfl⟩

/-- Before any GEN_INIT the step answers UNINIT (60_exceptions.md R122). -/
theorem step_genNext_uninit {s : State} {r : RequesterId} {q : Request} (hm : s.nextMove = .serve r)
    (hq : s.pending.find r = some q) (hop : q.op = 0x9) (hp : s.phase = .idle)
    (hd : s.initDone = false) :
    step s = .next ((s.serving r).respondTo r (errorResponse .uninit)) :=
  (step_serve hm hq (decode_genNext hop)).trans
    (execGenNext_uninit (s := s.serving r) hp hd)

section
variable {s : State} {r : RequesterId} {q : Request} {x : Word} {xs : List Word} {ms : List Move}
  (hx : s.samples.ahead = x :: xs) (hm : s.moves.ahead = .serve r :: ms)

include hx in
theorem State.serving_nextSample : (s.serving r).nextSample = x := by
  simp [State.serving, State.nextSample, Supply.head, hx]

include hx hm in
/-- The move taken and the sample taken. -/
theorem State.serving_takeSample : (s.serving r).takeSample = s.sampled r x xs ms := by
  simp [State.serving, State.takeSample, State.takeMove, State.nextSample, State.sampled, Supply.head,
    Supply.tail, hx, hm]

variable (hop : q.op = 0x9) (hq : s.pending.find r = some q) (hp : s.phase = .idle)
  (hd : s.initDone = true)

include hm hop hq hp hd in
theorem step_genNext_allocate : step s = .next (s.serving r).allocate := by
  have hmove : s.nextMove = .serve r := by simp [State.nextMove, Supply.head, hm]
  exact (step_serve hmove hq (decode_genNext hop)).trans
    (execGenNext_allocate (s := s.serving r) hp hd)

include hx hm hop hq hp hd

/-- Step 3 of R82: another time delta than LAST completes the GEN_NEXT with sequence 0. -/
theorem step_genNext_advanced (ht : timeDelta x s.epoch ≠ s.last) :
    step s = .next (s.completedAt r x 0 xs ms) := by
  rw [← State.serving_nextSample (r := r) hx] at ht
  rw [step_genNext_allocate hm hop hq hp hd, State.allocate_advanced ht,
    State.serving_takeSample hx hm, State.serving_nextSample hx]
  rfl

/-- Step 2 of R82 without a wrap. -/
theorem step_genNext_sameMs (ht : timeDelta x s.epoch = s.last) (hs : s.seq + 1 ≠ 0) :
    step s = .next (s.completedAt r x (s.seq + 1) xs ms) := by
  rw [State.completedAt, ht]
  rw [← State.serving_nextSample (r := r) hx] at ht
  rw [step_genNext_allocate hm hop hq hp hd, State.allocate_sameMs ht hs, State.serving_takeSample hx hm]
  rfl

/-- Step 2 of R82 with a wrap: the busy-wait begins. -/
theorem step_genNext_exhausted (ht : timeDelta x s.epoch = s.last) (hs : s.seq + 1 = 0) :
    step s = .next (s.waitingAt r x xs ms) := by
  rw [State.waitingAt, ht]
  rw [← State.serving_nextSample (r := r) hx] at ht
  rw [step_genNext_allocate hm hop hq hp hd, State.allocate_exhausted ht hs, State.serving_takeSample hx hm]
  rfl

end

/-! ### The busy-wait -/

/-- A sample at or below LAST prolongs the busy-wait. -/
theorem step_waitingAt_spun {s : State} {r : RequesterId} {x y : Word} {ys : List Word} {ms : List Move}
    (hx : (timeDelta x s.epoch).toInt ≤ s.last.toInt) (hy : (timeDelta y s.epoch).toInt ≤ s.last.toInt) :
    step (s.waitingAt r x (y :: ys) (.spin :: ms)) = .next (s.waitingAt r y ys ms) :=
  (step_spin rfl).trans
    (congrArg _ (State.spinOnce_spun (s := (s.waitingAt r x (y :: ys) (.spin :: ms)).takeMove) rfl hx hy))

/-- A sample above LAST ends it, with sequence 0. -/
theorem step_waitingAt_finished {s : State} {r : RequesterId} {x y : Word} {ys : List Word}
    {ms : List Move} (hx : (timeDelta x s.epoch).toInt ≤ s.last.toInt)
    (hy : s.last.toInt < (timeDelta y s.epoch).toInt) :
    step (s.waitingAt r x (y :: ys) (.spin :: ms)) = .next (s.completedAt r y 0 ys ms) :=
  (step_spin rfl).trans
    (congrArg _ (State.spinOnce_finished (s := (s.waitingAt r x (y :: ys) (.spin :: ms)).takeMove) rfl hx hy))

/-- A run whose first step is known. -/
theorem run_succ {s t : State} (h : step s = .next t) (k : Nat) : core.run (k + 1) s = core.run k t := by
  have hcore : core.step s = .next t := h
  simp only [Host.Core.run, hcore]

/-- What the pseudocode's busy-wait does with its next sample. -/
theorem waitPast_cons_eq_some {last epoch y t : Word} {ys : List Word} {n : Nat}
    (h : waitPast last epoch (y :: ys) = some (t, n)) :
    (last.toInt < (timeDelta y epoch).toInt ∧ t = timeDelta y epoch ∧ n = 1) ∨
    ((timeDelta y epoch).toInt ≤ last.toInt ∧ ∃ k, waitPast last epoch ys = some (t, k) ∧ n = k + 1) := by
  by_cases hy : last.toInt < (y - epoch).toInt
  · rw [waitPast, if_pos hy] at h
    cases h
    exact .inl ⟨hy, rfl, rfl⟩
  · rw [waitPast, if_neg hy, Option.map_eq_some_iff] at h
    obtain ⟨⟨t', k⟩, hk, he⟩ := h
    cases he
    exact .inr ⟨not_lt.1 hy, k, hk, rfl⟩

/-- The busy-wait runs as its pseudocode: it completes on the last of the samples that `waitPast` takes. -/
theorem run_waitingAt_completes {s : State} {r : RequesterId} {t : Word} {later : List Move}
    {ys : List Word} {x : Word} {n : Nat} (hx : (timeDelta x s.epoch).toInt ≤ s.last.toInt)
    (hw : waitPast s.last s.epoch ys = some (t, n)) :
    ∃ y, (ys.take n).getLast? = some y ∧ t = timeDelta y s.epoch ∧
      core.run n (s.waitingAt r x ys (List.replicate n .spin ++ later)) =
        .next (s.completedAt r y 0 (ys.drop n) later) := by
  induction ys generalizing x n with
  | nil => cases hw
  | cons y ys ih =>
    rcases waitPast_cons_eq_some hw with ⟨hy, rfl, rfl⟩ | ⟨hy, k, hk, rfl⟩
    · exact ⟨y, rfl, rfl, run_succ (step_waitingAt_finished hx hy) 0⟩
    · obtain ⟨z, hz, ht, hrun⟩ := ih hy hk
      exact ⟨z, by simp [List.getLast?_cons, hz], ht,
        (run_succ (step_waitingAt_spun hx hy) k).trans hrun⟩

/-- Until then it waits, one sample a step. -/
theorem run_waitingAt_waits {s : State} {r : RequesterId} {t : Word} {later : List Move}
    {ys : List Word} {x : Word} {n m : Nat} (hx : (timeDelta x s.epoch).toInt ≤ s.last.toInt)
    (hw : waitPast s.last s.epoch ys = some (t, n)) (hm : m < n) :
    ∃ y zs ms, core.run m (s.waitingAt r x ys (List.replicate n .spin ++ later)) =
      .next (s.waitingAt r y zs ms) := by
  induction ys generalizing x n m with
  | nil => cases hw
  | cons y ys ih =>
    cases m with
    | zero => exact ⟨x, _, _, rfl⟩
    | succ m =>
      rcases waitPast_cons_eq_some hw with ⟨-, -, rfl⟩ | ⟨hy, k, hk, rfl⟩
      · omega
      · obtain ⟨z, zs, ms, hrun⟩ := ih hy hk (Nat.lt_of_succ_lt_succ hm)
        exact ⟨z, zs, ms, (run_succ (step_waitingAt_spun hx hy) m).trans hrun⟩

/-! ### A whole GEN_NEXT -/

/-- SEQ is spent exactly when its increment wraps (10_state.md R26). -/
theorem seq_add_one_eq_zero_iff {seq : SeqNo} : seq + 1 = 0 ↔ seq.toNat = 4095 := by
  constructor <;> intro h <;> bv_omega

/-- The three ways through the pseudocode, by its first sample. -/
theorem allocateFrom_eq_some {last epoch t : Word} {seq seq' : SeqNo} {samples : List Word} {n : Nat}
    (h : allocateFrom last seq epoch samples = some (t, seq', n)) :
    ∃ x xs, samples = x :: xs ∧
      ((timeDelta x epoch ≠ last ∧ t = timeDelta x epoch ∧ seq' = 0 ∧ n = 1) ∨
       (timeDelta x epoch = last ∧ seq + 1 ≠ 0 ∧ t = timeDelta x epoch ∧ seq' = seq + 1 ∧ n = 1) ∨
       (timeDelta x epoch = last ∧ seq + 1 = 0 ∧ seq' = 0 ∧
         ∃ k, waitPast last epoch xs = some (t, k) ∧ n = k + 1)) := by
  cases samples with
  | nil => cases h
  | cons x xs =>
    refine ⟨x, xs, rfl, ?_⟩
    by_cases hx : x - epoch = last
    · by_cases hs : seq.toNat = 4095
      · rw [allocateFrom, if_pos hx, if_pos hs, Option.map_eq_some_iff] at h
        obtain ⟨⟨t', k⟩, hk, he⟩ := h
        cases he
        exact .inr (.inr ⟨hx, seq_add_one_eq_zero_iff.2 hs, rfl, k, hk, rfl⟩)
      · rw [allocateFrom, if_pos hx, if_neg hs] at h
        cases h
        exact .inr (.inl ⟨hx, mt seq_add_one_eq_zero_iff.1 hs, hx.symm, rfl, rfl⟩)
    · rw [allocateFrom, if_neg hx] at h
      cases h
      exact .inl ⟨hx, rfl, rfl, rfl⟩

/-- A GEN_NEXT after a GEN_INIT runs as its pseudocode: it completes on the last of the samples that
`allocateFrom` takes, and between two of its steps it is in its busy-wait. -/
theorem run_genNext {s : State} {r : RequesterId} {q : Request} {t : Word} {seq : SeqNo} {n : Nat}
    {later : List Move} (hop : q.op = 0x9) (hq : s.pending.find r = some q) (hp : s.phase = .idle)
    (hd : s.initDone = true)
    (ha : allocateFrom s.last s.seq s.epoch s.samples.ahead = some (t, seq, n))
    (hm : s.moves.ahead = .serve r :: (List.replicate (n - 1) .spin ++ later)) :
    (∃ x, (s.samples.ahead.take n).getLast? = some x ∧ t = timeDelta x s.epoch ∧
      core.run n s = .next (s.completedAt r x seq (s.samples.ahead.drop n) later)) ∧
    ∀ m, 0 < m → m < n → ∃ x xs ms, core.run m s = .next (s.waitingAt r x xs ms) := by
  obtain ⟨x, xs, hx, ⟨hne, rfl, rfl, rfl⟩ | ⟨heq, hs, rfl, rfl, rfl⟩ | ⟨heq, hs, rfl, k, hk, rfl⟩⟩ :=
    allocateFrom_eq_some ha
  · have hstep := step_genNext_advanced hx hm hop hq hp hd hne
    exact ⟨⟨x, by simp [hx], rfl, by rw [run_succ hstep, hx]; rfl⟩, by omega⟩
  · have hstep := step_genNext_sameMs hx hm hop hq hp hd heq hs
    exact ⟨⟨x, by simp [hx], rfl, by rw [run_succ hstep, hx]; rfl⟩, by omega⟩
  · have hstep := step_genNext_exhausted hx hm hop hq hp hd heq hs
    have hle : (timeDelta x s.epoch).toInt ≤ s.last.toInt := le_of_eq (congrArg _ heq)
    constructor
    · obtain ⟨y, hy, ht, hrun⟩ := run_waitingAt_completes hle hk
      exact ⟨y, by simp [hx, List.getLast?_cons, hy], ht, by rw [run_succ hstep, hx]; exact hrun⟩
    · intro m hpos hlt
      obtain ⟨m, rfl⟩ := Nat.exists_eq_add_one.2 hpos
      rw [run_succ hstep]
      exact run_waitingAt_waits hle hk (Nat.lt_of_succ_lt_succ hlt)

/-- N8 of 95_test_vectors.md, about to be served: the last millisecond's sequence is spent, and the clock
shows LAST, LAST, LAST - 1 and LAST + 1. -/
def wrappingNext : State :=
  { State.reset with
    epoch := 1000000
    node := 7
    last := 5
    seq := 4095
    initDone := true
    pending := [(0, ⟨0x9, 0, 0, 0⟩)]
    samples := ⟨[1000005, 1000005, 1000004, 1000006], 0⟩
    moves := ⟨.serve 0 :: List.replicate 3 .spin, 0⟩ }

/-- One state that meets every hypothesis of `run_genNext`: the GEN_NEXT completes after all four samples. -/
theorem run_wrappingNext : core.run 4 wrappingNext = .next (wrappingNext.completedAt 0 1000006 0 [] []) := by
  obtain ⟨⟨x, hx, -, hrun⟩, -⟩ := run_genNext (s := wrappingNext) (r := 0) (q := ⟨0x9, 0, 0, 0⟩) (t := 6)
    (seq := 0) (n := 4) (later := []) rfl rfl rfl rfl (by decide) rfl
  cases hx
  exact hrun

/-- Settles O24: before any GEN_INIT by `step_genNext_uninit`, after one by `run_genNext`, whose states
have the fields that the statement names. -/
theorem genNextRunsAsItsPseudocode : Obligations.GenNextRunsAsItsPseudocode := by
  intro s r q hop hq hp
  refine ⟨fun hd hm => step_genNext_uninit hm hq hop hp hd, fun hd t seq n later ha hm => ?_⟩
  obtain ⟨⟨x, hx, rfl, hrun⟩, hwait⟩ := run_genNext hop hq hp hd ha hm
  refine ⟨⟨x, hx, hrun⟩, fun m hpos hlt => ?_⟩
  obtain ⟨y, ys, ms, hrun⟩ := hwait m hpos hlt
  exact ⟨_, _, hrun, rfl, rfl, rfl, rfl, rfl, rfl, rfl, hd⟩

end Sys2Proof.Machine
end

section
/-! The semantic codec's own statements (41_semantic_codec.md): SEM_ENCODE's packing and SEM_DECODE's four
fields. Each operation does nothing but respond, and the values are the layout's. -/

namespace Sys2Proof.Machine

/-! ### The values -/

/-- The packing with its reductions written as remainders, as the formula of R100 has them. -/
theorem packSemantic_eq_mod (a b c : Word) :
    packSemantic a b c =
      a <<< 23 ||| BitVec.ofNat 64 (b.toNat % 2 ^ 13) <<< 10 ||| BitVec.ofNat 64 (c.toNat % 2 ^ 10) := by
  rw [packSemantic, modPow2_eq_ofNat, modPow2_eq_ofNat]

/-- The bits of a zero-extended field of a word. -/
theorem getLsbD_field {start len : Nat} (hlen : len ≤ 64) (v : Word) (i : Nat) :
    ((v.extractLsb' start len).setWidth 64).getLsbD i = (decide (i < len) && v.getLsbD (start + i)) := by
  rw [BitVec.getLsbD_setWidth, BitVec.getLsbD_extractLsb']
  by_cases h : i < len
  · simp [h, show i < 64 by omega]
  · simp [h]

/-- The shift is logical (90_conflicts.md C3), so zeros stand above A[63:23]. -/
theorem semanticObject_eq_field (id : Word) : semanticObject id = (id.extractLsb' 23 41).setWidth 64 := by
  apply BitVec.eq_of_getLsbD_eq
  intro i _
  rw [semanticObject_getLsbD, getLsbD_field (by decide)]
  by_cases h : i < 41
  · simp [h]
  · simp [h, show 64 ≤ 23 + i by omega]

theorem semanticNode_eq_field (id : Word) : semanticNode id = (id.extractLsb' 10 13).setWidth 64 :=
  BitVec.eq_of_getLsbD_eq fun i _ =>
    (semanticNode_getLsbD id i).trans (getLsbD_field (by decide) id i).symm

/-- The mask of `k` ones leaves the lowest `k` bits. -/
theorem and_mask_eq_field {k : Nat} (hk : k ≤ 64) (v : Word) :
    v &&& BitVec.ofNat 64 (2 ^ k - 1) = (v.extractLsb' 0 k).setWidth 64 := by
  apply BitVec.eq_of_getLsbD_eq
  intro i _
  rw [getLsbD_and_mask v k i hk, getLsbD_field hk, Nat.zero_add]

theorem semanticType_eq_field (id : Word) : semanticType id = (id.extractLsb' 0 10).setWidth 64 :=
  and_mask_eq_field (k := 10) (by decide) id

theorem semanticGlobalType_eq_field (id : Word) :
    semanticGlobalType id = (id.extractLsb' 0 23).setWidth 64 :=
  and_mask_eq_field (k := 23) (by decide) id

/-! ### The operations -/

/-- SEM_ENCODE does nothing but respond (41_semantic_codec.md R100). -/
theorem exec_semEncode (a b c : Word) (s : State) :
    exec (.semEncode a b c) s = .next (s.respondTo s.active ⟨.ok, packSemantic a b c, 0, 0, 0⟩) := rfl

/-- SEM_DECODE does nothing but respond, and reads A alone (41_semantic_codec.md R101). -/
theorem exec_semDecode (a b c : Word) (s : State) :
    exec (.semDecode a b c) s =
      .next (s.respondTo s.active
        ⟨.ok, semanticObject a, semanticNode a, semanticType a, semanticGlobalType a⟩) := rfl

/-! ### The statements -/

/-- Settles O1: the code is SEM_ENCODE's (`decode_eq_ok_iff`), and the response, its only effect
(`exec_semEncode`), carries the formula's value (`packSemantic_eq_mod`). -/
theorem semEncodePacksTheTriple : Obligations.SemEncodePacksTheTriple := by
  intro a b c s
  refine ⟨decode_eq_ok_iff.2 ⟨rfl, rfl⟩, ?_⟩
  rw [← packSemantic_eq_mod]
  exact exec_semEncode a b c s

/-- Settles O3: the code is SEM_DECODE's (`decode_eq_ok_iff`), its only effect is the response
(`exec_semDecode`), and each of the four results is its field, zero-extended. -/
theorem semDecodeUnpacksTheIdentifier : Obligations.SemDecodeUnpacksTheIdentifier := by
  intro a b c s
  exact ⟨decode_eq_ok_iff.2 ⟨rfl, rfl⟩, exec_semDecode a b c s, semanticObject_eq_field a,
    semanticNode_eq_field a, semanticType_eq_field a, semanticGlobalType_eq_field a⟩

end Sys2Proof.Machine
end

section
/-! The error responses' own statements (60_exceptions.md): which requests get one, and that it is all they
get. Both follow from one inversion of the steps that deliver a response, `step_delivers`. -/

namespace Sys2Proof.Machine

/-! ### The steps that deliver a response -/

theorem Request.wellFormed_of_isGenInit {q : Request} (h : q.isGenInit = true) : q.wellFormed = true := by
  simp [Request.wellFormed, Request.isGenInit_iff.1 h]

/-- The ways a step from `s` to `t` delivers the response `d`. -/
inductive DeliveryCase (s t : State) (d : Delivery) : Prop
  /-- A served request completes. -/
  | served (q : Request) (hq : s.pending.find d.dest = some q) (hw : q.wellFormed = true)
      (hd : q.op = 0x9 → s.initDone = true) (hx : d.response.st = .ok)
  /-- A busy-wait ends. -/
  | waited (u : Word) (n : SeqNo) (hp : s.phase = .busy d.dest u n) (hx : d.response.st = .ok)
  /-- The decoder rejects an illegal code (60_exceptions.md R121). -/
  | illegalOp (q : Request) (hq : s.pending.find d.dest = some q) (hw : q.wellFormed = false)
      (hx : d.response = errorResponse .illegalOp)
      (ht : t = (s.serving d.dest).respondTo d.dest (errorResponse .illegalOp))
  /-- The generator unit refuses a GEN_NEXT before any GEN_INIT (60_exceptions.md R122). -/
  | uninit (q : Request) (hq : s.pending.find d.dest = some q) (hop : q.op = 0x9)
      (hd : s.initDone = false) (hx : d.response = errorResponse .uninit)
      (ht : t = (s.serving d.dest).respondTo d.dest (errorResponse .uninit))

/-- The inversion of a step that delivers a response. -/
theorem step_delivers {s t : State} {d : Delivery} (h : step s = .next t) (hr : t.rsp = some d) :
    DeliveryCase s t d := by
  cases step_cases h with
  | coded r q x hm hq hi hg hx =>
    cases hr
    obtain ⟨hok, hw⟩ | ⟨rfl, hw⟩ := hx
    · exact .served q hq hw (fun hop => by simp [Request.isGenNext_iff.2 hop] at hg) hok
    · exact .illegalOp q hq hw rfl rfl
  | inited r q hm hq hi hg hp =>
    cases hr
    exact .served q hq (Request.wellFormed_of_isGenInit hi)
      (fun hop => by simp [Request.isGenNext_iff.2 hop] at hg) rfl
  | uninit r q hm hq hg hi hp hd =>
    cases hr
    exact .uninit q hq (Request.isGenNext_iff.1 hg) hd rfl rfl
  | advanced r q hm hq hg hi hp hd ht =>
    cases hr
    exact .served q hq (Request.wellFormed_of_isGenNext hg) (fun _ => hd) rfl
  | sameMs r q hm hq hg hi hp hd ht hs =>
    cases hr
    exact .served q hq (Request.wellFormed_of_isGenNext hg) (fun _ => hd) rfl
  | finished r u n hm hp hu ht =>
    cases hr
    exact .waited u n hp rfl
  | stale r u n hm hp hu =>
    cases hr
    exact .waited u n hp rfl
  | _ => cases hr

/-! ### The status of an answered request -/

theorem answered_eq_some_iff {s t : State} {q : Request} {x : Response} :
    answered s t = some (q, x) ↔
      ∃ d, t.rsp = some d ∧ s.pending.find d.dest = some q ∧ d.response = x := by
  cases h : t.rsp <;> simp [answered, h]

/-- One request gets one status (60_exceptions.md R124). The invariant is needed for the end of a busy-wait
alone: what completes there is a GEN_NEXT accepted after a GEN_INIT. -/
theorem answered_cases {s t : State} {q : Request} {x : Response} (hs : s.Inv) (h : step s = .next t)
    (ha : answered s t = some (q, x)) :
    (x.st = .ok ∧ q.wellFormed = true ∧ (q.op = 0x9 → s.initDone = true)) ∨
    (x.st = .illegalOp ∧ q.wellFormed = false) ∨
    (x.st = .uninit ∧ q.op = 0x9 ∧ s.initDone = false) := by
  obtain ⟨d, hr, hq, rfl⟩ := answered_eq_some_iff.1 ha
  cases step_delivers h hr with
  | served q' hq' hw hd hx =>
    cases hq.symm.trans hq'
    exact .inl ⟨hx, hw, hd⟩
  | waited u n hp hx =>
    obtain ⟨hd, -, -, -, q', hq', hg⟩ := hs.spinning _ _ _ hp
    cases hq.symm.trans hq'
    exact .inl ⟨hx, Request.wellFormed_of_isGenNext hg, fun _ => hd⟩
  | illegalOp q' hq' hw hx ht =>
    cases hq.symm.trans hq'
    exact .inr (.inl ⟨by rw [hx]; rfl, hw⟩)
  | uninit q' hq' hop hd hx ht =>
    cases hq.symm.trans hq'
    exact .inr (.inr ⟨by rw [hx]; rfl, hop, hd⟩)

/-! ### The statements -/

/-- Settles O43: the answer is one of three (`answered_cases`), whose conditions exclude each other because a
GEN_NEXT's code is legal. -/
theorem onlyIllegalCodesAndEarlyNextsFail : Obligations.OnlyIllegalCodesAndEarlyNextsFail := by
  intro s t q x hs h ha
  have hlegal : q.op = 0x9 → q.wellFormed = true := fun hop =>
    Request.wellFormed_of_isGenNext (Request.isGenNext_iff.2 hop)
  obtain ⟨hx, hw, hd⟩ | ⟨hx, hw⟩ | ⟨hx, hop, hd⟩ := answered_cases hs h ha
  · simpa [hx, hw] using hd
  · have hop : q.op ≠ 0x9 := fun hop => by simp [hlegal hop] at hw
    simpa [hx, hw] using fun hop' => absurd hop' hop
  · simp [hx, hlegal hop, hop, hd]

/-- Settles O44: the two error cases of `step_delivers` give the whole next state; its other cases answer
OK. -/
theorem errorResponsesHaveNoEffect : Obligations.ErrorResponsesHaveNoEffect := by
  rintro s t ⟨r, x⟩ h hr he
  cases step_delivers h hr with
  | served q hq hw hd hx => exact absurd hx he
  | waited u n hp hx => exact absurd hx he
  | illegalOp q hq hw hx ht =>
    cases hx
    exact ⟨rfl, rfl, rfl, rfl, ht⟩
  | uninit q hq hop hd hx ht =>
    cases hx
    exact ⟨rfl, rfl, rfl, rfl, ht⟩

/-- Settles O19: the generator unit is free and refuses (`execGenNext_uninit`), which is the error response
alone. -/
theorem genNextBeforeInitAnswersUninit : Obligations.GenNextBeforeInitAnswersUninit := by
  intro a b c s hp hd
  exact ⟨execGenNext_uninit hp hd, rfl⟩

end Sys2Proof.Machine
end

section
/-! The invariant: it holds at reset, every step keeps it, and what it says of a busy-wait. -/

namespace Sys2Proof.Machine

/-- Settles O55: at reset nothing is outstanding, PHASE is IDLE and every register has its reset value. -/
theorem invariantHoldsAtReset : Obligations.InvariantHoldsAtReset where
  pendingWf := List.Pairwise.nil
  requesters := nofun
  epochFixed := rfl
  untouched := fun _ => ⟨rfl, rfl, rfl⟩
  spinning := nofun

/-- A requester whose request is no GEN_NEXT owns no busy-wait. -/
theorem State.Inv.owner_ne {s : State} (hs : s.Inv) {r owner : RequesterId} {u : Word} {n : SeqNo}
    (hp : s.phase = .busy owner u n) (hr : ∀ q, s.pending.find r = some q → q.isGenNext = false) :
    owner ≠ r := by
  rintro rfl
  obtain ⟨-, -, -, -, q, hq, hg⟩ := hs.spinning _ _ _ hp
  simp [hr q hq] at hg

/-- A GEN_INIT has completed before any busy-wait begins. -/
theorem State.Inv.initDone_of_busy {s : State} (hs : s.Inv) {r : RequesterId} {u : Word} {n : SeqNo}
    (hp : s.phase = .busy r u n) : s.initDone = true :=
  (hs.spinning r u n hp).1

/-- The owner of a busy-wait has its GEN_NEXT outstanding. -/
theorem State.Inv.pending_of_busy {s : State} (hs : s.Inv) {r : RequesterId} {u : Word} {n : SeqNo}
    (hp : s.phase = .busy r u n) : ∃ q, s.pending.find r = some q ∧ q.isGenNext = true :=
  (hs.spinning r u n hp).2.2.2.2

/-- An issue keeps the invariant: the new request is no busy-wait's, since its requester had none. -/
theorem State.Inv.issue {s : State} (hs : s.Inv) {r : RequesterId} (q : Request)
    (hr : r < Config.nRequesters) (hn : s.pending.find r = none) :
    State.Inv { s.takeMove with pending := s.pending.insert r q } where
  pendingWf := Pending.insert_wf hs.pendingWf r q
  requesters := fun e he => by
    obtain rfl | he := Pending.mem_of_mem_insert he
    · exact hr
    · exact hs.requesters e he
  epochFixed := hs.epochFixed
  untouched := hs.untouched
  spinning := fun r' u n hp => by
    obtain ⟨hd, hseq, hn0, hle, q', hq', hg⟩ := hs.spinning r' u n hp
    have hne : r' ≠ r := hs.owner_ne hp (by simp [hn])
    exact ⟨hd, hseq, hn0, hle, q', by simpa [Pending.find_insert, hne] using hq', hg⟩

/-- A response keeps the invariant when it goes to no busy-wait's owner and no register changes. -/
theorem State.Inv.respondTo {s : State} (hs : s.Inv) {r : RequesterId} (x : Response)
    (hr : ∀ q, s.pending.find r = some q → q.isGenNext = false) :
    ((s.serving r).respondTo r x).Inv where
  pendingWf := Pending.erase_wf hs.pendingWf r
  requesters := fun e he => hs.requesters e (Pending.mem_of_mem_erase he)
  epochFixed := hs.epochFixed
  untouched := hs.untouched
  spinning := fun r' u n hp => by
    obtain ⟨hd, hseq, hn0, hle, q', hq', hg⟩ := hs.spinning r' u n hp
    exact ⟨hd, hseq, hn0, hle, q',
      (Pending.find_erase_of_ne s.pending (hs.owner_ne hp hr)).trans hq', hg⟩

/-- A completion that leaves PHASE IDLE keeps the invariant. -/
theorem State.Inv.completion {s t : State} (hs : s.Inv) {r : RequesterId} (hp : t.phase = .idle)
    (he : t.epoch = s.epoch) (hpend : t.pending = s.pending.erase r)
    (hu : t.initDone = false → t.node = 0 ∧ t.last = 0 ∧ t.seq = 0) : t.Inv where
  pendingWf := hpend ▸ Pending.erase_wf hs.pendingWf r
  requesters := fun e h => hs.requesters e (Pending.mem_of_mem_erase (hpend ▸ h))
  epochFixed := he.trans hs.epochFixed
  untouched := hu
  spinning := fun r' u n h => by simp [hp] at h

/-- The completion of a GEN_NEXT keeps the invariant. -/
theorem State.Inv.finishNext {s w : State} {r : RequesterId} {u : Word} {n : SeqNo} (hs : s.Inv)
    (hd : w.initDone = true) (he : w.epoch = s.epoch) (hpend : w.pending = s.pending) :
    (w.finishNext r u n).Inv :=
  hs.completion rfl he (congrArg (Pending.erase · r) hpend) (by simp [hd])

/-- Settles O56: one case a way to step (`step_cases`). The busy-wait clause is kept because a busy-wait's
owner has a GEN_NEXT outstanding, so no issue and no other response touches its request. -/
theorem everyStepKeepsTheInvariant : Obligations.EveryStepKeepsTheInvariant := by
  intro s t hs h
  cases step_cases h with
  | issued r q hm hr hn => exact hs.issue q hr hn
  | nothing hm => exact ⟨hs.pendingWf, hs.requesters, hs.epochFixed, hs.untouched, hs.spinning⟩
  | waits r q o u n hm hq hg hp =>
    exact ⟨hs.pendingWf, hs.requesters, hs.epochFixed, hs.untouched, hs.spinning⟩
  | coded r q x hm hq hi hg hx =>
    refine hs.respondTo x fun q' hq' => ?_
    cases hq.symm.trans hq'
    exact hg
  | inited r q hm hq hi hg hp => exact hs.completion hp rfl rfl nofun
  | uninit r q hm hq hg hi hp hd => exact hs.completion hp rfl rfl hs.untouched
  | advanced r q hm hq hg hi hp hd ht => exact hs.finishNext hd rfl rfl
  | sameMs r q hm hq hg hi hp hd ht hs' => exact hs.finishNext hd rfl rfl
  | exhausted r q hm hq hg hi hp hd ht hseq =>
    refine ⟨hs.pendingWf, hs.requesters, hs.epochFixed, hs.untouched, ?_⟩
    rintro _ _ _ ⟨⟩
    have hspent : s.seq = 4095 := BitVec.eq_of_toNat_eq (seq_add_one_eq_zero_iff.1 hseq)
    exact ⟨hd, hspent, rfl, le_rfl, q, hq, hg⟩
  | spun r u n hm hp hu ht =>
    refine ⟨hs.pendingWf, hs.requesters, hs.epochFixed, hs.untouched, ?_⟩
    rintro _ _ _ ⟨⟩
    obtain ⟨hd, hseq, hn0, -, hq⟩ := hs.spinning r u n hp
    exact ⟨hd, hseq, hn0, ht, hq⟩
  | finished r u n hm hp hu ht => exact hs.finishNext (hs.initDone_of_busy hp) rfl rfl
  | stale r u n hm hp hu => exact hs.finishNext (hs.initDone_of_busy hp) rfl rfl
  | reset hm => exact ⟨List.Pairwise.nil, nofun, rfl, fun _ => ⟨rfl, rfl, rfl⟩, nofun⟩

/-- Settles O57: the busy-wait's own request is outstanding (`State.Inv.pending_of_busy`). -/
theorem aSpinningRunHasNotEnded : Obligations.ASpinningRunHasNotEnded := by
  intro s r u n hs hp hend
  obtain ⟨q, hq, -⟩ := hs.pending_of_busy hp
  rw [hend] at hq
  cases hq

end Sys2Proof.Machine
end

section
/-! The generator registers along a step: the one inversion `generatorStep` says which steps write them, with
which values, and to whom a GEN_NEXT's identifier goes. -/

namespace Sys2Proof.Machine

/-! ### What a step does to the generator -/

/-- The identifier of the generator registers as they stand: step 5 of 40_generator.md R82. -/
def State.stamp (s : State) : Word := composeClassic s.last s.node (s.seq.setWidth 64)

/-- No generator register is written. -/
structure SameRegisters (s t : State) : Prop where
  epoch : t.epoch = s.epoch
  node : t.node = s.node
  last : t.last = s.last
  seq : t.seq = s.seq
  initDone : t.initDone = s.initDone

/-- A GEN_NEXT of requester `r` completes: of the registers, LAST and SEQ alone are written, and the
response carries their identifier. -/
structure CompletesNext (s t : State) (r : RequesterId) : Prop where
  epoch : t.epoch = s.epoch
  node : t.node = s.node
  initDone : t.initDone = s.initDone
  rsp : t.rsp = some ⟨r, .ok, t.stamp, 0, 0, 0⟩

/-- LAST is the time delta of the sample that the step took. -/
def LastIsSampled (s t : State) : Prop := ∃ x, t.clk = some x ∧ t.last = timeDelta x s.epoch

/-- What a step does to the generator registers. -/
inductive GeneratorStep (s t : State) : Prop
  /-- They are not written, and neither a GEN_INIT nor a completed GEN_NEXT is answered. -/
  | quiet (hk : SameRegisters s t)
      (ha : ∀ q x, answered s t = some (q, x) →
        q.isGenInit = false ∧ (q.isGenNext = true → x.st ≠ .ok))
  /-- A GEN_INIT is answered. -/
  | inited (q : Request) (x : Response) (ha : answered s t = some (q, x)) (hi : q.isGenInit = true)
      (hg : q.isGenNext = false) (he : t.epoch = s.epoch)
      (hw : t.node = q.a ∧ t.last = 0 ∧ t.seq = 0 ∧ t.initDone = true)
  /-- A GEN_NEXT completes on its first sample. -/
  | served (r : RequesterId) (q : Request) (hq : s.pending.find r = some q) (hg : q.isGenNext = true)
      (hd : s.initDone = true) (hc : CompletesNext s t r) (hx : LastIsSampled s t)
      (hl : t.last ≠ s.last ∨ t.last = s.last ∧ s.seq + 1 ≠ 0 ∧ t.seq = s.seq + 1)
  /-- A GEN_NEXT completes at the end of its busy-wait. -/
  | waited (r : RequesterId) (u : Word) (n : SeqNo) (hp : s.phase = .busy r u n)
      (hc : CompletesNext s t r) (hx : u.toInt ≤ s.last.toInt → LastIsSampled s t)
      (hl : s.last.toInt < t.last.toInt)
  /-- Reset. -/
  | reset (hm : s.nextMove = .reset) (ht : t = s.takeMove.applyReset)

theorem answered_of_rsp_none {s t : State} (h : t.rsp = none) : answered s t = none := by
  simp [answered, h]

theorem answered_of_rsp {s t : State} {r : RequesterId} {q : Request} {x : Response}
    (h : t.rsp = some ⟨r, x⟩) (hq : s.pending.find r = some q) : answered s t = some (q, x) :=
  answered_eq_some_iff.2 ⟨_, h, hq, rfl⟩

/-- A step that delivers nothing and writes no register. -/
theorem GeneratorStep.silent {s t : State} (hk : SameRegisters s t) (hr : t.rsp = none) :
    GeneratorStep s t :=
  .quiet hk fun q x ha => by simp [answered_of_rsp_none hr] at ha

/-- A step that answers a request other than by completing a generator operation, and writes no register. -/
theorem GeneratorStep.answers {s t : State} {r : RequesterId} {q : Request} {x : Response}
    (hk : SameRegisters s t) (hr : t.rsp = some ⟨r, x⟩) (hq : s.pending.find r = some q)
    (hi : q.isGenInit = false) (hx : q.isGenNext = true → x.st ≠ .ok) : GeneratorStep s t :=
  .quiet hk fun q' x' ha => by
    cases (answered_of_rsp hr hq).symm.trans ha
    exact ⟨hi, hx⟩

/-- The inversion of a step by what it does to the generator registers (10_state.md R35). -/
theorem generatorStep {s t : State} (h : step s = .next t) : GeneratorStep s t := by
  cases step_cases h with
  | issued r q hm hr hn => exact .silent ⟨rfl, rfl, rfl, rfl, rfl⟩ rfl
  | nothing hm => exact .silent ⟨rfl, rfl, rfl, rfl, rfl⟩ rfl
  | waits r q o u n hm hq hg hp => exact .silent ⟨rfl, rfl, rfl, rfl, rfl⟩ rfl
  | coded r q x hm hq hi hg hx =>
    exact .answers ⟨rfl, rfl, rfl, rfl, rfl⟩ rfl hq hi (by simp [hg])
  | inited r q hm hq hi hg hp =>
    exact .inited q _ (answered_of_rsp rfl hq) hi hg rfl ⟨rfl, rfl, rfl, rfl⟩
  | uninit r q hm hq hg hi hp hd =>
    exact .answers ⟨rfl, rfl, rfl, rfl, rfl⟩ rfl hq hi fun _ => nofun
  | advanced r q hm hq hg hi hp hd ht =>
    exact .served r q hq hg hd ⟨rfl, rfl, rfl, rfl⟩ ⟨_, rfl, rfl⟩ (.inl ht)
  | sameMs r q hm hq hg hi hp hd ht hs =>
    exact .served r q hq hg hd ⟨rfl, rfl, rfl, rfl⟩ ⟨_, rfl, ht.symm⟩ (.inr ⟨rfl, hs, rfl⟩)
  | exhausted r q hm hq hg hi hp hd ht hs => exact .silent ⟨rfl, rfl, rfl, rfl, rfl⟩ rfl
  | spun r u n hm hp hu ht => exact .silent ⟨rfl, rfl, rfl, rfl, rfl⟩ rfl
  | finished r u n hm hp hu ht =>
    exact .waited r u n hp ⟨rfl, rfl, rfl, rfl⟩ (fun _ => ⟨_, rfl, rfl⟩) ht
  | stale r u n hm hp hu =>
    exact .waited r u n hp ⟨rfl, rfl, rfl, rfl⟩ (fun hle => absurd hu (not_lt.2 hle)) hu
  | reset hm => exact .reset hm rfl

/-! ### The identifiers a step returns -/

theorem allocated_eq_some_iff {s t : State} {id : Word} :
    allocated s t = some id ↔
      ∃ q x, answered s t = some (q, x) ∧ q.isGenNext = true ∧ x.st = .ok ∧ x.r0 = id := by
  unfold allocated
  split
  next q id' _ _ _ ha => by_cases hg : q.isGenNext = true <;> simp [ha, hg]
  next hno =>
    simp only [reduceCtorEq, false_iff]
    rintro ⟨q, ⟨st, r0, r1, r2, r3⟩, ha, -, hok, -⟩
    cases hok
    exact hno q r0 r1 r2 r3 ha

theorem allocated_eq_none {s t : State}
    (h : ∀ q x, answered s t = some (q, x) → q.isGenNext = true → x.st ≠ .ok) : allocated s t = none := by
  rw [Option.eq_none_iff_forall_ne_some]
  intro id ha
  obtain ⟨q, x, hqx, hg, hok, -⟩ := allocated_eq_some_iff.1 ha
  exact h q x hqx hg hok

/-- What the completion of an outstanding GEN_NEXT returns. -/
theorem CompletesNext.allocated_eq {s t : State} {r : RequesterId} {q : Request}
    (hc : CompletesNext s t r) (hq : s.pending.find r = some q) (hg : q.isGenNext = true) :
    allocated s t = some t.stamp :=
  allocated_eq_some_iff.2 ⟨q, _, answered_of_rsp hc.rsp hq, hg, rfl, rfl⟩

/-- Whatever request stands behind it, a completion returns no other identifier than the registers'. -/
theorem CompletesNext.eq_stamp {s t : State} {r : RequesterId} {id : Word} (hc : CompletesNext s t r)
    (ha : allocated s t = some id) : id = t.stamp := by
  obtain ⟨q, x, hqx, -, -, rfl⟩ := allocated_eq_some_iff.1 ha
  obtain ⟨d, hd, -, rfl⟩ := answered_eq_some_iff.1 hqx
  cases hc.rsp.symm.trans hd
  rfl

/-- An answer to another operation returns no identifier. -/
theorem allocated_eq_none_of_answered {s t : State} {q : Request} {x : Response}
    (ha : answered s t = some (q, x)) (hg : q.isGenNext = false) : allocated s t = none :=
  allocated_eq_none fun q' x' ha' hg' => by
    cases ha.symm.trans ha'
    simp [hg] at hg'

theorem allocated_of_rsp_none {s t : State} (h : t.rsp = none) : allocated s t = none :=
  allocated_eq_none fun q x ha => by simp [answered_of_rsp_none h] at ha

/-- Settles O27: an identifier comes with a completion (`generatorStep`), which moves LAST, or leaves it and
counts SEQ up. -/
theorem everyAllocationChangesLastOrSeq : Obligations.EveryAllocationChangesLastOrSeq := by
  intro s t id h ha
  cases generatorStep h with
  | quiet hk hno => simp [allocated_eq_none fun q x hqx => (hno q x hqx).2] at ha
  | inited q x hqx hi hg he hw => simp [allocated_eq_none_of_answered hqx hg] at ha
  | served r q hq hg hd hc hx hl =>
    obtain hl | ⟨-, -, hseq⟩ := hl
    · exact .inl hl
    · exact .inr (by rw [hseq]; simp)
  | waited r u n hp hc hx hl => exact .inl fun heq => by simp [heq] at hl
  | reset hm ht =>
    subst ht
    exact absurd ha (by rw [allocated_of_rsp_none rfl]; nofun)

/-- Settles O47: the clauses are the cases of `generatorStep`. The invariant is needed for the end of a
busy-wait: what it answers is a GEN_NEXT. -/
theorem registersAreWrittenOnlyAtCompletion : Obligations.RegistersAreWrittenOnlyAtCompletion := by
  intro s t hs h hm
  cases generatorStep h with
  | quiet hk hno =>
    refine ⟨hk.epoch, ?_⟩
    have hsame : t.node = s.node ∧ t.last = s.last ∧ t.seq = s.seq ∧ t.initDone = s.initDone :=
      ⟨hk.node, hk.last, hk.seq, hk.initDone⟩
    cases ha : answered s t with
    | none => exact hsame
    | some qx =>
      obtain ⟨q, x⟩ := qx
      obtain ⟨hi, hg⟩ := hno q x ha
      rw [← Bool.not_eq_true, Request.isGenInit_iff] at hi
      rw [Request.isGenNext_iff] at hg
      simpa only [if_neg hi, if_neg (fun hc : _ ∧ _ => hg hc.1 hc.2)] using hsame
  | inited q x ha hi hg he hw =>
    rw [ha]
    exact ⟨he, by simpa [Request.isGenInit_iff.1 hi] using hw⟩
  | served r q hq hg hd hc hx hl =>
    rw [answered_of_rsp hc.rsp hq]
    exact ⟨hc.epoch, by simpa [Request.isGenNext_iff.1 hg] using ⟨hc.node, hc.initDone⟩⟩
  | waited r u n hp hc hx hl =>
    obtain ⟨q, hq, hg⟩ := hs.pending_of_busy hp
    rw [answered_of_rsp hc.rsp hq]
    exact ⟨hc.epoch, by simpa [Request.isGenNext_iff.1 hg] using ⟨hc.node, hc.initDone⟩⟩
  | reset hm' ht => exact absurd hm' hm

end Sys2Proof.Machine
end

section
/-! Runs: what a trace shows step by step, and the statements that an invariant along the run gives. -/

namespace Sys2Proof.Machine

/-! ### Traces -/

theorem traceOf_succ {α : Type} (f : State → State → Option α) {s t : State} (h : step s = .next t)
    (k : Nat) : traceOf f (k + 1) s = (f s t).toList ++ traceOf f k t := by
  simp [traceOf, h]

theorem mem_traceOf_succ {α : Type} {f : State → State → Option α} {s t : State} (h : step s = .next t)
    {k : Nat} {x : α} : x ∈ traceOf f (k + 1) s ↔ f s t = some x ∨ x ∈ traceOf f k t := by
  simp [traceOf_succ f h]

theorem alongRun_mono {P Q : State → State → Prop} (hPQ : ∀ s t, P s t → Q s t) {k : Nat} {s : State}
    (hrun : AlongRun P k s) : AlongRun Q k s := by
  induction k generalizing s with
  | zero => trivial
  | succ k ih =>
    obtain ⟨t, h, hp, hrun⟩ := hrun
    exact ⟨t, h, hPQ s t hp, ih hrun⟩

/-- A trace is empty when an invariant of the run keeps each step from showing anything. -/
theorem traceOf_eq_nil {α : Type} {f : State → State → Option α} {P : State → State → Prop}
    {I : State → Prop} (hstep : ∀ s t, I s → step s = .next t → P s t → I t ∧ f s t = none)
    {k : Nat} {s : State} (hs : I s) (hrun : AlongRun P k s) : traceOf f k s = [] := by
  induction k generalizing s with
  | zero => rfl
  | succ k ih =>
    obtain ⟨t, h, hp, hrun⟩ := hrun
    obtain ⟨ht, hnone⟩ := hstep s t hs h hp
    rw [traceOf_succ f h, hnone, ih ht hrun]
    rfl

/-! ### Before any GEN_INIT -/

/-- Settles O54: before a GEN_INIT no GEN_NEXT completes, and no step but a GEN_INIT's completion sets
INIT_DONE, so the run keeps INIT_DONE = 0 beside the invariant. -/
theorem noIdentifierBeforeAGenInit : Obligations.NoIdentifierBeforeAGenInit := by
  intro k s hs hd hrun
  refine traceOf_eq_nil (I := fun s => s.Inv ∧ s.initDone = false) ?_ ⟨hs, hd⟩ hrun
  rintro s t ⟨hs, hd⟩ h hno
  suffices t.initDone = false ∧ allocated s t = none from
    ⟨⟨everyStepKeepsTheInvariant s t hs h, this.1⟩, this.2⟩
  cases generatorStep h with
  | quiet hk ha => exact ⟨hk.initDone.trans hd, allocated_eq_none fun q x hqx => (ha q x hqx).2⟩
  | inited q x ha hi hg he hw => simp [hno q x ha] at hi
  | served r q hq hg hd' hc hx hl => simp [hd] at hd'
  | waited r u n hp hc hx hl => simp [hs.initDone_of_busy hp] at hd
  | reset hm ht => exact ⟨ht ▸ rfl, allocated_of_rsp_none (ht ▸ rfl)⟩

/-! ### Legal programs -/

/-- What a run of legal programs keeps: a GEN_INIT has completed, and only legal requests wait. -/
structure State.LegalProgram (s : State) : Prop where
  inv : s.Inv
  initDone : s.initDone = true
  legal : ∀ e ∈ s.pending, e.2.wellFormed = true

/-- A step adds no other request than the one it issues. -/
theorem mem_pending_of_step {s t : State} (h : step s = .next t) {e : RequesterId × Request}
    (he : e ∈ t.pending) : e ∈ s.pending ∨ s.nextMove = .issue e.1 e.2 := by
  cases step_cases h with
  | issued r q hm hr hn =>
    obtain rfl | he := Pending.mem_of_mem_insert he
    · exact .inr hm
    · exact .inl he
  | nothing hm => exact .inl he
  | waits r q o u n hm hq hg hp => exact .inl he
  | exhausted r q hm hq hg hi hp hd ht hs => exact .inl he
  | spun r u n hm hp hu ht => exact .inl he
  | reset hm => cases he
  | _ => exact .inl (Pending.mem_of_mem_erase he)

/-- INIT_DONE is cleared by reset alone. -/
theorem initDone_of_step {s t : State} (h : step s = .next t) (hm : s.nextMove ≠ .reset)
    (hd : s.initDone = true) : t.initDone = true := by
  cases generatorStep h with
  | quiet hk ha => exact hk.initDone.trans hd
  | inited q x ha hi hg he hw => exact hw.2.2.2
  | served r q hq hg hd hc hx hl => exact hc.initDone.trans hd
  | waited r u n hp hc hx hl => exact hc.initDone.trans hd
  | reset hm' ht => exact absurd hm' hm

/-- The response to a legal program is OK. -/
theorem State.LegalProgram.response_ok {s t : State} (hs : s.LegalProgram) (h : step s = .next t)
    {d : Delivery} (hr : t.rsp = some d) : d.response.st = .ok := by
  cases step_delivers h hr with
  | served q hq hw hd hx => exact hx
  | waited u n hp hx => exact hx
  | illegalOp q hq hw hx ht => simp [hs.legal _ (Pending.mem_of_find hq)] at hw
  | uninit q hq hop hd hx ht => simp [hs.initDone] at hd

/-- Settles O58: a run of legal programs stays one, and its responses are OK, which record no fault. -/
theorem legalProgramsCommitNoFault : Obligations.LegalProgramsCommitNoFault := by
  intro k s hs hd hlegal hrun
  refine ⟨alongRun_mono (fun _ _ _ => trivial) hrun,
    traceOf_eq_nil (I := State.LegalProgram) ?_ ⟨hs, hd, hlegal⟩ hrun⟩
  rintro s t hs h ⟨hm, hissue⟩
  have hlegal : ∀ e ∈ t.pending, e.2.wellFormed = true := fun e he =>
    (mem_pending_of_step h he).elim (hs.legal e) (hissue e.1 e.2)
  refine ⟨⟨everyStepKeepsTheInvariant s t hs.inv h, initDone_of_step h hm hs.initDone, hlegal⟩, ?_⟩
  cases hr : t.rsp with
  | none => rfl
  | some d => simp [Delivery.programFault, hs.response_ok h hr]

end Sys2Proof.Machine
end

section
/-! GEN_NEXTs along a run: what a busy generator unit does, when a busy-wait completes, how many identifiers
one time delta has, and in what order identifiers come. -/

namespace Sys2Proof.Machine

/-! ### A step while the generator unit is busy -/

/-- What a step other than reset does while PHASE is BUSY for requester `r`. -/
inductive BusyStep (s t : State) (r : RequesterId) (u : Word) (n : SeqNo) : Prop
  /-- Another agent moves: the operation, and a GEN_NEXT of `r`, stay, and no generator request is answered. -/
  | passes (hp : t.phase = .busy r u n) (hl : t.last = s.last) (he : t.epoch = s.epoch) (hc : t.clk = none)
      (hq : ∀ q, s.pending.find r = some q → q.isGenNext = true → t.pending.find r = some q)
      (ha : ∀ d, t.rsp = some d →
        ∃ q, s.pending.find d.dest = some q ∧ q.isGenInit = false ∧ q.isGenNext = false)
  /-- A sample at or below LAST. -/
  | spins (x : Word) (hp : t.phase = .busy r (timeDelta x s.epoch) n) (hl : t.last = s.last)
      (he : t.epoch = s.epoch) (hc : t.clk = some x) (hq : t.pending = s.pending) (hr : t.rsp = none)
      (hx : (timeDelta x s.epoch).toInt ≤ s.last.toInt)
  /-- The operation is answered, on a sample above LAST if the last one was not above it. -/
  | ends (hp : t.phase = .idle) (x : Response) (hr : t.rsp = some ⟨r, x⟩)
      (hx : u.toInt ≤ s.last.toInt → ∃ y, t.clk = some y ∧ s.last.toInt < (timeDelta y s.epoch).toInt)

theorem busyStep {s t : State} {r : RequesterId} {u : Word} {n : SeqNo} (hp : s.phase = .busy r u n)
    (h : step s = .next t) (hm : s.nextMove ≠ .reset) : BusyStep s t r u n := by
  have hbusy : s.phase ≠ .idle := by simp [hp]
  cases step_cases h with
  | issued r' q' hm' hr' hn =>
    refine .passes hp rfl rfl rfl (fun q hq _ => ?_) nofun
    have hne : r ≠ r' := by
      rintro rfl
      simp [hn] at hq
    simpa [Pending.find_insert, hne] using hq
  | nothing hm' => exact .passes hp rfl rfl rfl (fun q hq _ => hq) nofun
  | waits r' q' o u' n' hm' hq' hg' hp' => exact .passes hp rfl rfl rfl (fun q hq _ => hq) nofun
  | coded r' q' x hm' hq' hi' hg' hx =>
    refine .passes hp rfl rfl rfl (fun q hq hg => ?_) ?_
    · have hne : r ≠ r' := by
        rintro rfl
        cases hq.symm.trans hq'
        simp [hg] at hg'
      exact (Pending.find_erase_of_ne _ hne).trans hq
    · rintro _ ⟨⟩
      exact ⟨q', hq', hi', hg'⟩
  | inited _ _ _ _ _ _ hidle => exact absurd hidle hbusy
  | uninit _ _ _ _ _ _ hidle => exact absurd hidle hbusy
  | advanced _ _ _ _ _ _ hidle => exact absurd hidle hbusy
  | sameMs _ _ _ _ _ _ hidle => exact absurd hidle hbusy
  | exhausted _ _ _ _ _ _ hidle => exact absurd hidle hbusy
  | spun r' u' n' hm' hp' hu' ht =>
    cases hp.symm.trans hp'
    exact .spins _ rfl rfl rfl rfl rfl rfl ht
  | finished r' u' n' hm' hp' hu' ht =>
    cases hp.symm.trans hp'
    exact .ends rfl _ rfl fun _ => ⟨_, rfl, ht⟩
  | stale r' u' n' hm' hp' hu' =>
    cases hp.symm.trans hp'
    exact .ends rfl _ rfl fun hu => absurd hu' (not_lt.2 hu)
  | reset hm' => exact absurd hm' hm

/-- Settles O48 by `busyStep`. -/
theorem oneGeneratorOperationAtATime : Obligations.OneGeneratorOperationAtATime := by
  intro s t r u n hp h hm
  cases busyStep hp h hm with
  | passes hp' hl he hc hq ha =>
    refine ⟨fun q x d hqx hd hop => ?_, .inl ⟨u, hp'⟩⟩
    obtain ⟨q', hq', hi, hg⟩ := ha d hd
    cases hqx.symm.trans (answered_of_rsp hd hq')
    obtain hop | hop := hop
    · simp [Request.isGenInit_iff.2 hop] at hi
    · simp [Request.isGenNext_iff.2 hop] at hg
  | spins x hp' hl he hc hq hr hx => exact ⟨fun q y d _ hd _ => by simp [hr] at hd, .inl ⟨_, hp'⟩⟩
  | ends hp' x hr hx =>
    refine ⟨fun q y d _ hd _ => ?_, .inr ⟨hp', _, hr, rfl⟩⟩
    cases hr.symm.trans hd
    rfl

/-! ### The busy-wait along a run -/

/-- Requester `r`'s GEN_NEXT is in its busy-wait, and its last sample is not above LAST. -/
structure State.SpinsFor (s : State) (r : RequesterId) : Prop where
  busy : ∃ u n, s.phase = .busy r u n ∧ u.toInt ≤ s.last.toInt
  waiting : ∃ q, s.pending.find r = some q ∧ q.isGenNext = true

/-- A step of a busy-wait that goes on: nobody answers its requester, and no sample is above LAST. -/
structure SpinsOn (s t : State) (r : RequesterId) : Prop where
  spins : t.SpinsFor r
  last : t.last = s.last
  epoch : t.epoch = s.epoch
  notAnswered : ∀ d, t.rsp = some d → d.dest ≠ r
  notAbove : ∀ x, t.clk = some x → (timeDelta x s.epoch).toInt ≤ s.last.toInt

/-- A step of a busy-wait that ends: its requester is answered, on a sample above LAST. -/
structure SpinEnds (s t : State) (r : RequesterId) : Prop where
  answered : ∃ d, t.rsp = some d ∧ d.dest = r
  above : ∃ x, t.clk = some x ∧ s.last.toInt < (timeDelta x s.epoch).toInt

/-- While a busy-wait lasts, every step but reset either ends it on a sample above LAST or leaves it. -/
theorem State.SpinsFor.on_or_ends {s t : State} {r : RequesterId} (hs : s.SpinsFor r)
    (h : step s = .next t) (hm : s.nextMove ≠ .reset) : SpinsOn s t r ∨ SpinEnds s t r := by
  obtain ⟨u, n, hp, hu⟩ := hs.busy
  obtain ⟨q, hq, hg⟩ := hs.waiting
  cases busyStep hp h hm with
  | passes hp' hl he hc hq' ha =>
    refine .inl ⟨⟨⟨u, n, hp', hl.symm ▸ hu⟩, q, hq' q hq hg, hg⟩, hl, he, ?_, by simp [hc]⟩
    rintro d hd rfl
    obtain ⟨q', hq', -, hg'⟩ := ha d hd
    cases hq.symm.trans hq'
    simp [hg] at hg'
  | spins x hp' hl he hc hpend hr hx =>
    refine .inl ⟨⟨⟨_, n, hp', hl.symm ▸ hx⟩, q, hpend.symm ▸ hq, hg⟩, hl, he, by simp [hr], ?_⟩
    intro y hy
    cases hc.symm.trans hy
    exact hx
  | ends hp' x hr hx => exact .inr ⟨⟨_, hr, rfl⟩, hx hu⟩

/-- A busy-wait is answered within a run exactly when the run takes a sample above LAST. -/
theorem State.SpinsFor.answered_iff {k : Nat} {s : State} {r : RequesterId} (hs : s.SpinsFor r)
    (hrun : AlongRun NoReset k s) :
    (∃ d ∈ deliveries k s, d.dest = r) ↔
      ∃ x ∈ samplesTaken k s, s.last.toInt < (timeDelta x s.epoch).toInt := by
  induction k generalizing s with
  | zero => simp [deliveries, samplesTaken, traceOf]
  | succ k ih =>
    obtain ⟨t, h, hm, hrun⟩ := hrun
    simp only [deliveries, samplesTaken, mem_traceOf_succ h]
    obtain hon | hend := hs.on_or_ends h hm
    · have ht := ih hon.spins hrun
      rw [hon.last, hon.epoch] at ht
      constructor
      · rintro ⟨d, hd | hd, hr⟩
        · exact absurd hr (hon.notAnswered d hd)
        · obtain ⟨x, hx, hlt⟩ := ht.1 ⟨d, hd, hr⟩
          exact ⟨x, .inr hx, hlt⟩
      · rintro ⟨x, hx | hx, hlt⟩
        · exact absurd hlt (not_lt.2 (hon.notAbove x hx))
        · obtain ⟨d, hd, hr⟩ := ht.2 ⟨x, hx, hlt⟩
          exact ⟨d, .inr hd, hr⟩
    · obtain ⟨d, hd, hr⟩ := hend.answered
      obtain ⟨x, hx, hlt⟩ := hend.above
      exact ⟨fun _ => ⟨x, .inl hx, hlt⟩, fun _ => ⟨d, .inl hd, hr⟩⟩

/-- Settles O25: the state is one of `State.SpinsFor`. -/
theorem busyWaitCompletesIffTheClockPassesLast : Obligations.BusyWaitCompletesIffTheClockPassesLast := by
  intro k s r u n q hp hu hq hop hrun
  have hs : s.SpinsFor r := ⟨⟨u, n, hp, hu⟩, q, hq, Request.isGenNext_iff.2 hop⟩
  exact hs.answered_iff hrun

/-! ### One time delta -/

/-- A step that keeps LAST and restarts nothing keeps NODE and returns at most one identifier, that of the
next sequence number, which does not wrap. -/
theorem sameMillisecond_step {s t : State} (h : step s = .next t) (hr : NoRestart s t)
    (hl : t.last = s.last) :
    t.node = s.node ∧
      (allocated s t = none ∧ t.seq = s.seq ∨
        allocated s t = some t.stamp ∧ t.seq.toNat = s.seq.toNat + 1) := by
  cases generatorStep h with
  | quiet hk ha => exact ⟨hk.node, .inl ⟨allocated_eq_none fun q x hqx => (ha q x hqx).2, hk.seq⟩⟩
  | inited q x ha hi hg he hw => simp [hr.2 q x ha] at hi
  | served r q hq hg hd hc hx hl' =>
    obtain ⟨-, hwrap, hseq⟩ := hl'.resolve_left (not_not.2 hl)
    refine ⟨hc.node, .inr ⟨hc.allocated_eq hq hg, ?_⟩⟩
    rw [hseq]
    bv_omega
  | waited r u n hp hc hx hlt => simp [hl] at hlt
  | reset hm ht => exact absurd hm hr.1

/-- The identifiers of a run within one time delta carry the successive sequence numbers after SEQ. -/
theorem allocations_sameMillisecond {k : Nat} {s : State}
    (hrun : AlongRun (fun s t => NoRestart s t ∧ t.last = s.last) k s) :
    s.seq.toNat + (allocations k s).length ≤ 4095 ∧
    allocations k s = (List.range' (s.seq.toNat + 1) (allocations k s).length).map fun seq =>
      composeClassic s.last s.node (BitVec.ofNat 64 seq) := by
  induction k generalizing s with
  | zero => exact ⟨Nat.le_of_lt_succ s.seq.isLt, rfl⟩
  | succ k ih =>
    obtain ⟨t, h, ⟨hr, hl⟩, hrun⟩ := hrun
    obtain ⟨hbound, hlist⟩ := ih hrun
    obtain ⟨hn, ⟨ha, hseq⟩ | ⟨ha, hseq⟩⟩ := sameMillisecond_step h hr hl
    · have hcons : allocations (k + 1) s = allocations k t := by simp [allocations, traceOf_succ _ h, ha]
      rw [hseq] at hbound
      rw [hl, hn, hseq] at hlist
      rw [hcons]
      exact ⟨hbound, hlist⟩
    · have hcons : allocations (k + 1) s = t.stamp :: allocations k t := by
        simp [allocations, traceOf_succ _ h, ha]
      rw [hl, hn, hseq] at hlist
      rw [hcons, List.length_cons, List.range'_succ, List.map_cons, ← hlist, ← hseq, BitVec.ofNat_toNat,
        State.stamp, hl, hn]
      exact ⟨by omega, rfl⟩

/-- Settles O28, with the sequence numbers counted from SEQ + 1. -/
theorem oneMillisecondGivesAtMost4096 : Obligations.OneMillisecondGivesAtMost4096 := by
  intro k s hrun
  obtain ⟨hbound, hlist⟩ := allocations_sameMillisecond hrun
  rw [List.range'_eq_map_range, List.map_map] at hlist
  exact ⟨hbound, hlist⟩

/-! ### Uniqueness and order -/

/-- No busy-wait stands on a sample above LAST, and the identifiers are in the classic layout: what a run
under the premises of 40_generator.md R89 keeps. -/
structure State.Ordered (s : State) : Prop where
  waits : ∀ r u n, s.phase = .busy r u n → u.toInt ≤ s.last.toInt
  last : s.last.toNat < 2 ^ 41
  node : s.node.toNat < 1024

/-- The sample of a step, if it takes one, gives a time delta in range and not below LAST. -/
def ClockAdvances (s t : State) : Prop :=
  ∀ x, t.clk = some x → s.last.toNat ≤ (timeDelta x s.epoch).toNat ∧ (timeDelta x s.epoch).toNat < 2 ^ 41

theorem toInt_of_lt_two_pow_41 {v : Word} (h : v.toNat < 2 ^ 41) : v.toInt = v.toNat :=
  BitVec.toInt_eq_toNat_of_lt (by omega)

theorem State.Ordered.stamp_toNat {s : State} (hs : s.Ordered) :
    s.stamp.toNat = s.last.toNat * 2 ^ 22 + s.node.toNat * 2 ^ 12 + s.seq.toNat := by
  have hseq : (s.seq.setWidth 64).toNat = s.seq.toNat := BitVec.toNat_setWidth_of_le (by decide)
  rw [State.stamp, composeClassic_toNat hs.last hs.node (hseq ▸ s.seq.isLt), hseq]

/-- A step between two states of the run never leaves a busy-wait on a sample above LAST. -/
theorem waits_of_step {s t : State} (h : step s = .next t)
    (hs : ∀ r u n, s.phase = .busy r u n → u.toInt ≤ s.last.toInt) :
    ∀ r u n, t.phase = .busy r u n → u.toInt ≤ t.last.toInt := by
  cases step_cases h with
  | exhausted r q hm hq hg hi hp hd ht hseq =>
    rintro _ _ _ ⟨⟩
    exact le_rfl
  | spun r u n hm hp hu ht =>
    rintro _ _ _ ⟨⟩
    exact ht
  | inited r q hm hq hi hg hp => exact fun r' u n hp' => nomatch hp.symm.trans hp'
  | advanced => exact nofun
  | sameMs => exact nofun
  | finished => exact nofun
  | stale => exact nofun
  | reset hm => exact nofun
  | _ => exact hs

/-- Where LAST and the identifiers stand after a step of the run. -/
structure Advances (s t : State) : Prop where
  ordered : t.Ordered
  epoch : t.epoch = s.epoch
  last : t.last = s.last ∨ LastIsSampled s t
  stamp_le : s.stamp.toNat ≤ t.stamp.toNat
  stamp_lt : ∀ id, allocated s t = some id → id = t.stamp ∧ s.stamp.toNat < t.stamp.toNat

/-- A completed GEN_NEXT advances the generator: (LAST, SEQ) rises lexicographically. -/
theorem CompletesNext.advances {s t : State} {r : RequesterId} (hc : CompletesNext s t r)
    (hs : s.Ordered) (ht : t.Ordered) (hx : LastIsSampled s t)
    (hl : s.last.toNat < t.last.toNat ∨ t.last = s.last ∧ t.seq.toNat = s.seq.toNat + 1) :
    Advances s t := by
  have hlt : s.stamp.toNat < t.stamp.toNat := by
    have hseq : s.seq.toNat < 2 ^ 12 := s.seq.isLt
    have hnode := hs.node
    rw [hs.stamp_toNat, ht.stamp_toNat, hc.node]
    obtain hl | ⟨hl, hseq'⟩ := hl
    · omega
    · rw [hl, hseq']
      omega
  exact ⟨ht, hc.epoch, .inr hx, hlt.le, fun id ha => ⟨hc.eq_stamp ha, hlt⟩⟩

/-- Under the premises every step advances the generator or leaves it. -/
theorem State.Ordered.advances {s t : State} (hs : s.Ordered) (h : step s = .next t) (hr : NoRestart s t)
    (hclk : ClockAdvances s t) : Advances s t := by
  have hwaits := waits_of_step h hs.waits
  have hsampled : LastIsSampled s t → s.last.toNat ≤ t.last.toNat ∧ t.last.toNat < 2 ^ 41 := by
    rintro ⟨x, hx, hl⟩
    exact hl ▸ hclk x hx
  cases generatorStep h with
  | quiet hk ha =>
    have hstamp : t.stamp = s.stamp := by rw [State.stamp, hk.last, hk.node, hk.seq, State.stamp]
    refine ⟨⟨hwaits, ?_, ?_⟩, hk.epoch, .inl hk.last, (congrArg BitVec.toNat hstamp).ge,
      fun id hid => ?_⟩
    · rw [hk.last]
      exact hs.last
    · rw [hk.node]
      exact hs.node
    · simp [allocated_eq_none fun q x hqx => (ha q x hqx).2] at hid
  | inited q x ha hi hg he hw => simp [hr.2 q x ha] at hi
  | served r q hq hg hd hc hx hl =>
    obtain ⟨hle, hlt⟩ := hsampled hx
    refine hc.advances hs ⟨hwaits, hlt, hc.node ▸ hs.node⟩ hx ?_
    obtain hne | ⟨heq, hwrap, hseq⟩ := hl
    · exact .inl (lt_of_le_of_ne hle fun heq => hne (BitVec.eq_of_toNat_eq heq.symm))
    · exact .inr ⟨heq, by rw [hseq]; bv_omega⟩
  | waited r u n hp hc hx hl =>
    have hx := hx (hs.waits r u n hp)
    obtain ⟨-, hlt⟩ := hsampled hx
    rw [toInt_of_lt_two_pow_41 hs.last, toInt_of_lt_two_pow_41 hlt, Int.ofNat_lt] at hl
    exact hc.advances hs ⟨hwaits, hlt, hc.node ▸ hs.node⟩ hx (.inl hl)
  | reset hm ht => exact absurd hm hr.1

/-- Under the premises the identifiers of a run lie above the generator's, in strictly increasing order. -/
theorem State.Ordered.allocations_increase {k : Nat} {s : State} (hs : s.Ordered)
    (hrun : AlongRun NoRestart k s)
    (hclk : ∀ x ∈ samplesTaken k s,
      s.last.toNat ≤ (timeDelta x s.epoch).toNat ∧ (timeDelta x s.epoch).toNat < 2 ^ 41)
    (hmono : (samplesTaken k s).Pairwise
      fun x y => (timeDelta x s.epoch).toNat ≤ (timeDelta y s.epoch).toNat) :
    (∀ id ∈ allocations k s, s.stamp.toNat < id.toNat ∧ id.toNat < 2 ^ 63) ∧
    (allocations k s).Pairwise fun x y => x.toNat < y.toNat := by
  induction k generalizing s with
  | zero => exact ⟨nofun, List.Pairwise.nil⟩
  | succ k ih =>
    obtain ⟨t, h, hr, hrun⟩ := hrun
    have hadv := hs.advances h hr fun x hx => hclk x ((mem_traceOf_succ h).2 (.inl hx))
    rw [samplesTaken, traceOf_succ _ h, List.pairwise_append] at hmono
    obtain ⟨-, hmono, hfirst⟩ := hmono
    have hlater : ∀ y ∈ samplesTaken k t,
        t.last.toNat ≤ (timeDelta y t.epoch).toNat ∧ (timeDelta y t.epoch).toNat < 2 ^ 41 := by
      intro y hy
      obtain ⟨hle, hlt⟩ := hclk y ((mem_traceOf_succ h).2 (.inr hy))
      rw [hadv.epoch]
      refine ⟨?_, hlt⟩
      obtain heq | ⟨x, hx, heq⟩ := hadv.last
      · rw [heq]
        exact hle
      · rw [heq]
        exact hfirst x (by simp [hx]) y hy
    rw [← hadv.epoch] at hmono
    obtain ⟨habove, hpair⟩ := ih hadv.ordered hrun hlater hmono
    have habove' : ∀ id ∈ allocations k t, s.stamp.toNat < id.toNat ∧ id.toNat < 2 ^ 63 := fun id hid =>
      ⟨hadv.stamp_le.trans_lt (habove id hid).1, (habove id hid).2⟩
    rw [allocations, traceOf_succ _ h]
    cases ha : allocated s t with
    | none => exact ⟨habove', hpair⟩
    | some id =>
      obtain ⟨rfl, hlt⟩ := hadv.stamp_lt id ha
      have hsmall : t.stamp.toNat < 2 ^ 63 := by
        have hseq : t.seq.toNat < 2 ^ 12 := t.seq.isLt
        have hlast := hadv.ordered.last
        have hnode := hadv.ordered.node
        rw [hadv.ordered.stamp_toNat]
        omega
      exact ⟨List.forall_mem_cons.2 ⟨⟨hlt, hsmall⟩, habove'⟩,
        List.pairwise_cons.2 ⟨fun y hy => (habove y hy).1, hpair⟩⟩

/-- Settles O29: right after a GEN_INIT the state is in order and every sample is at or above LAST = 0. Below
2^63 the signed order is the unsigned one. -/
theorem allocationsStrictlyIncrease : Obligations.AllocationsStrictlyIncrease := by
  intro k s hd hp hlast hseq hnode hrun hclk hmono
  have hs : s.Ordered := ⟨by simp [hp], by simp [hlast], hnode⟩
  obtain ⟨hbound, hpair⟩ :=
    hs.allocations_increase hrun (fun x hx => ⟨by simp [hlast], hclk x hx⟩) hmono
  have hint : ∀ id ∈ allocations k s, id.toInt = id.toNat := fun id hid =>
    BitVec.toInt_eq_toNat_of_lt (by have := (hbound id hid).2; omega)
  refine ⟨fun id hid => getLsbD_eq_false_of_toNat_lt (hbound id hid).2 le_rfl, hpair, ?_, ?_⟩
  · refine hpair.imp_of_mem fun hx hy hlt => ?_
    rw [hint _ hx, hint _ hy]
    exact Int.ofNat_lt.2 hlt
  · exact hpair.imp fun hlt heq => by simp [heq] at hlt

end Sys2Proof.Machine
end

section
/-! The laws of the codec (41_semantic_codec.md, 30_encoding.md): the identifier and its fields as numbers,
from which the round trips follow. -/

namespace Sys2Proof.Machine

/-! ### The identifier and its fields as numbers -/

/-- The packing as a number: each field reduced to its width, in its place. -/
theorem packSemantic_toNat (a b c : Word) :
    (packSemantic a b c).toNat =
      a.toNat % 2 ^ 41 * 2 ^ 23 + b.toNat % 2 ^ 13 * 2 ^ 10 + c.toNat % 2 ^ 10 := by
  rw [packSemantic_eq_append, BitVec.toNat_append, BitVec.toNat_append,
    ← Nat.shiftLeft_add_eq_or_of_lt (BitVec.isLt _), ← Nat.shiftLeft_add_eq_or_of_lt (BitVec.isLt _)]
  simp only [BitVec.extractLsb'_toNat, Nat.shiftRight_zero, Nat.shiftLeft_eq]
  omega

/-- A zero-extended field as a number. -/
theorem toNat_field {start len : Nat} (hlen : len ≤ 64) (v : Word) :
    ((v.extractLsb' start len).setWidth 64).toNat = v.toNat / 2 ^ start % 2 ^ len := by
  rw [BitVec.toNat_setWidth_of_le hlen, BitVec.extractLsb'_toNat, Nat.shiftRight_eq_div_pow]

theorem semanticObject_toNat (id : Word) : (semanticObject id).toNat = id.toNat / 2 ^ 23 := by
  rw [semanticObject, BitVec.toNat_ushiftRight, Nat.shiftRight_eq_div_pow]

theorem semanticNode_toNat (id : Word) : (semanticNode id).toNat = id.toNat / 2 ^ 10 % 2 ^ 13 := by
  rw [semanticNode_eq_field, toNat_field (by decide)]

theorem semanticType_toNat (id : Word) : (semanticType id).toNat = id.toNat % 2 ^ 10 := by
  rw [semanticType_eq_field, toNat_field (by decide), Nat.pow_zero, Nat.div_one]

theorem semanticGlobalType_toNat (id : Word) : (semanticGlobalType id).toNat = id.toNat % 2 ^ 23 := by
  rw [semanticGlobalType_eq_field, toNat_field (by decide), Nat.pow_zero, Nat.div_one]

theorem and_mask_toNat {k : Nat} (hk : k ≤ 64) (v : Word) :
    (v &&& BitVec.ofNat 64 (2 ^ k - 1)).toNat = v.toNat % 2 ^ k := by
  rw [and_mask_eq_field hk, toNat_field hk, Nat.pow_zero, Nat.div_one]

/-! ### The round trips -/

/-- Every identifier is packed from its fields. -/
theorem packSemantic_fields (id : Word) :
    packSemantic (semanticObject id) (semanticNode id) (semanticType id) = id := by
  apply BitVec.eq_of_toNat_eq
  have hid : id.toNat < 2 ^ 64 := id.isLt
  rw [packSemantic_toNat, semanticObject_toNat, semanticNode_toNat, semanticType_toNat]
  omega

/-- Packing forgets nothing but what is above the field widths. -/
theorem packSemantic_eq_iff {a b c a' b' c' : Word} :
    packSemantic a b c = packSemantic a' b' c' ↔
      a.toNat % 2 ^ 41 = a'.toNat % 2 ^ 41 ∧ b.toNat % 8192 = b'.toNat % 8192 ∧
        c.toNat % 1024 = c'.toNat % 1024 := by
  rw [← BitVec.toNat_inj, packSemantic_toNat, packSemantic_toNat]
  omega

theorem validId_eq_false_iff {id : Word} : validId id = false ↔ 2 ^ 63 ≤ id.toNat := by
  have hmsb : id.getLsbD 63 = decide (2 ^ 63 ≤ id.toNat) := BitVec.msb_eq_decide id
  rw [validId, hmsb]
  simp

/-! ### The statements -/

/-- Settles O2 by `packSemantic_eq_append`. -/
theorem encodedFieldsStandSideBySide : Obligations.EncodedFieldsStandSideBySide := by
  intro a b c s
  exact ⟨_, _, exec_semEncode a b c s, rfl, packSemantic_eq_append a b c⟩

/-- Settles O7: each field of a packed identifier is its operand, reduced. -/
theorem decodingAnEncodedTripleReducesIt : Obligations.DecodingAnEncodedTripleReducesIt := by
  intro a b c s
  refine ⟨_, _, _, _, _, _, _, exec_semEncode a b c s, rfl, exec_semDecode _ 0 0 _, rfl, ?_⟩
  rw [semanticObject_toNat, semanticNode_toNat, semanticType_toNat, semanticGlobalType_toNat,
    packSemantic_toNat]
  omega

/-- Settles O8 by `packSemantic_fields`. -/
theorem encodingADecodedIdentifierRestoresIt : Obligations.EncodingADecodedIdentifierRestoresIt := by
  intro id b c s
  refine ⟨_, _, _, _, _, _, exec_semDecode id b c s, rfl, exec_semEncode _ _ _ _, ?_⟩
  rw [packSemantic_fields]
  rfl

/-- Settles O9 by `packSemantic_eq_iff`. -/
theorem triplesAliasExactlyModuloTheWidths : Obligations.TriplesAliasExactlyModuloTheWidths := by
  intro a b c a' b' c' s
  exact ⟨_, _, _, _, exec_semEncode a b c s, rfl, exec_semEncode a' b' c' s, rfl, packSemantic_eq_iff⟩

/-- Settles O10: R1 and R2 are the upper 13 and the lower 10 of R3's 23 bits. -/
theorem globalTypeIdJoinsNodeAndType : Obligations.GlobalTypeIdJoinsNodeAndType := by
  intro id b c s
  refine ⟨_, _, _, _, _, exec_semDecode id b c s, rfl, ?_⟩
  rw [semanticNode_toNat, semanticType_toNat, semanticGlobalType_toNat]
  omega

/-- A 23-bit global type ID, split in node and type, stands in bits 22:0. -/
theorem packSemantic_globalType (a : Word) {g : Word} (hg : g.toNat < 2 ^ 23) :
    (packSemantic a (g >>> 10) (g &&& 0x3FF)).toNat = a.toNat % 2 ^ 41 * 2 ^ 23 + g.toNat := by
  have htype : (g &&& 0x3FF).toNat = g.toNat % 2 ^ 10 := and_mask_toNat (k := 10) (by decide) g
  rw [packSemantic_toNat, htype, BitVec.toNat_ushiftRight, Nat.shiftRight_eq_div_pow]
  omega

/-- Settles O11 by `packSemantic_globalType`. -/
theorem encodingPlacesAGlobalTypeId : Obligations.EncodingPlacesAGlobalTypeId := by
  intro a g s hg
  have hid := packSemantic_globalType a hg
  refine ⟨_, _, exec_semEncode _ _ _ s, rfl, ?_, BitVec.eq_of_toNat_eq ?_, BitVec.eq_of_toNat_eq ?_⟩
  · omega
  · rw [semanticGlobalType_toNat]
    omega
  · have hobject : (a &&& 0x1FFFFFFFFFF).toNat = a.toNat % 2 ^ 41 :=
      and_mask_toNat (k := 41) (by decide) a
    rw [semanticObject_toNat, hobject]
    omega

/-- Settles O12: bit 63 belongs to the object ID's field, which begins at bit 23. -/
theorem semanticSignBitIsObjectBit40 : Obligations.SemanticSignBitIsObjectBit40 := by
  intro a b c s
  refine ⟨_, _, exec_semEncode a b c s, rfl, packSemantic_getLsbD a b c 63, ?_⟩
  rw [validId_eq_false_iff, packSemantic_toNat]
  omega

end Sys2Proof.Machine
end

section
/-! The classic layout (30_encoding.md R67): the fields of SF_COMPOSE's identifier, and how they overlap with
the semantic ones. -/

namespace Sys2Proof.Machine

/-! ### How the layouts overlap -/

theorem classicTime_getLsbD (id : Word) (i : Nat) :
    (classicTime id).getLsbD i = (decide (i < 41) && id.getLsbD (22 + i)) :=
  BitVec.getLsbD_extractLsb' ..

theorem classicNode_getLsbD (id : Word) (i : Nat) :
    (classicNode id).getLsbD i = (decide (i < 10) && id.getLsbD (12 + i)) :=
  BitVec.getLsbD_extractLsb' ..

theorem classicSequence_getLsbD (id : Word) (i : Nat) :
    (classicSequence id).getLsbD i = (decide (i < 12) && id.getLsbD i) := by
  rw [classicSequence, BitVec.getLsbD_extractLsb', Nat.zero_add]

/-- The semantic node ID lies across the three classic fields. -/
theorem semanticNode_eq_classic (id : Word) :
    semanticNode id =
      ((classicTime id).extractLsb' 0 1 ++ classicNode id ++
        (classicSequence id).extractLsb' 10 2).setWidth 64 := by
  apply BitVec.eq_of_getLsbD_eq
  intro i hi
  rw [semanticNode_getLsbD, BitVec.getLsbD_setWidth, BitVec.getLsbD_append, BitVec.getLsbD_append]
  simp only [BitVec.getLsbD_extractLsb', classicTime_getLsbD, classicNode_getLsbD, classicSequence_getLsbD]
  by_cases h2 : i < 2
  · simp [hi, h2, show i < 13 by omega, show 10 + i < 12 by omega]
  · by_cases h12 : i < 12
    · simp [hi, h2, show i < 13 by omega, show i - 2 < 10 by omega, show 12 + (i - 2) = 10 + i by omega]
    · by_cases h13 : i < 13
      · obtain rfl : i = 12 := by omega
        simp
      · simp [h2, h13, show ¬ i - 2 < 10 by omega, show ¬ i - 2 - 10 < 1 by omega]

theorem semanticType_eq_classic (id : Word) :
    semanticType id = ((classicSequence id).extractLsb' 0 10).setWidth 64 := by
  apply BitVec.eq_of_getLsbD_eq
  intro i hi
  rw [semanticType_getLsbD, BitVec.getLsbD_setWidth, BitVec.getLsbD_extractLsb', classicSequence_getLsbD]
  by_cases h10 : i < 10
  · simp [hi, h10, show i < 12 by omega]
  · simp [h10]

theorem semanticObject_eq_classic (id : Word) :
    semanticObject id = (id.extractLsb' 63 1 ++ (classicTime id).extractLsb' 1 40).setWidth 64 := by
  apply BitVec.eq_of_getLsbD_eq
  intro i hi
  rw [semanticObject_getLsbD, BitVec.getLsbD_setWidth, BitVec.getLsbD_append]
  simp only [BitVec.getLsbD_extractLsb', classicTime_getLsbD]
  by_cases h40 : i < 40
  · simp [hi, h40, show 1 + i < 41 by omega, show 22 + (1 + i) = 23 + i by omega]
  · by_cases h41 : i < 41
    · obtain rfl : i = 40 := by omega
      simp
    · simp [h40, show ¬ i - 40 < 1 by omega, show 64 ≤ 23 + i by omega]

/-- Settles O13, one field after another. -/
theorem classicAndSemanticFieldsOverlap : Obligations.ClassicAndSemanticFieldsOverlap := fun id =>
  ⟨semanticNode_eq_classic id, semanticType_eq_classic id, semanticObject_eq_classic id⟩

/-! ### The fields of a composed identifier -/

section
variable {n q : Word} (hn : n.toNat < 1024) (hq : q.toNat < 4096)

include hn hq in
/-- Above node and sequence in range stands the time delta alone. -/
theorem composeClassic_getLsbD_time (t : Word) {i : Nat} (hi : i < 42) :
    (composeClassic t n q).getLsbD (22 + i) = t.getLsbD i := by
  rw [composeClassic_getLsbD, getLsbD_eq_false_of_toNat_lt (k := 10) hn (by omega),
    getLsbD_eq_false_of_toNat_lt (k := 12) hq (by omega)]
  simp [show 22 + i < 64 by omega]

include hn hq in
theorem classicTime_composeClassic (t : Word) : classicTime (composeClassic t n q) = t.setWidth 41 := by
  apply BitVec.eq_of_getLsbD_eq
  intro i hi
  rw [classicTime_getLsbD, composeClassic_getLsbD_time hn hq t (by omega), BitVec.getLsbD_setWidth]

include hq in
theorem classicNode_composeClassic (t : Word) : classicNode (composeClassic t n q) = n.setWidth 10 := by
  apply BitVec.eq_of_getLsbD_eq
  intro i hi
  rw [classicNode_getLsbD, composeClassic_getLsbD, getLsbD_eq_false_of_toNat_lt (k := 12) hq (by omega),
    BitVec.getLsbD_setWidth]
  simp [show 12 + i < 64 by omega, show ¬ 22 ≤ 12 + i by omega]

theorem classicSequence_composeClassic (t n q : Word) :
    classicSequence (composeClassic t n q) = q.setWidth 12 := by
  apply BitVec.eq_of_getLsbD_eq
  intro i hi
  rw [classicSequence_getLsbD, composeClassic_getLsbD, BitVec.getLsbD_setWidth]
  simp [show i < 64 by omega, show ¬ 22 ≤ i by omega, show ¬ 12 ≤ i by omega]

include hn hq in
theorem classicNode_composeClassic_toNat (t : Word) : (classicNode (composeClassic t n q)).toNat = n.toNat := by
  rw [classicNode_composeClassic hq, BitVec.toNat_setWidth, Nat.mod_eq_of_lt hn]

include hq in
theorem classicSequence_composeClassic_toNat (t n : Word) :
    (classicSequence (composeClassic t n q)).toNat = q.toNat := by
  rw [classicSequence_composeClassic, BitVec.toNat_setWidth, Nat.mod_eq_of_lt hq]

end

/-- Settles O14: the identifier as a number is below 2^63, and each field reads back. -/
theorem composedFieldsReadBack : Obligations.ComposedFieldsReadBack := by
  intro t n q s ht hn hq
  have hid := composeClassic_toNat ht hn hq
  refine ⟨_, _, exec_sfCompose t n q s, rfl, hid, getLsbD_eq_false_of_toNat_lt (k := 63) (by omega) le_rfl, ?_,
    classicNode_composeClassic_toNat hn hq t, classicSequence_composeClassic_toNat hq t n⟩
  rw [classicTime_composeClassic hn hq, BitVec.toNat_setWidth, Nat.mod_eq_of_lt ht]

/-- Settles O15: no bit of node or sequence reaches bit 22 (`composeClassic_getLsbD_time`). -/
theorem composeKeeps42TimeBits : Obligations.ComposeKeeps42TimeBits := by
  intro t n q s hn hq
  refine ⟨_, _, exec_sfCompose t n q s, rfl, BitVec.eq_of_getLsbD_eq fun i hi => ?_,
    classicNode_composeClassic_toNat hn hq t, classicSequence_composeClassic_toNat hq t n⟩
  rw [BitVec.getLsbD_extractLsb', BitVec.getLsbD_extractLsb', composeClassic_getLsbD_time hn hq t hi,
    Nat.zero_add]

/-- The node's bits from 10 up fall on the time field's from 0 up. -/
theorem composeClassic_wide_node (t n q : Word) :
    composeClassic (t ||| n >>> 10) (n &&& 0x3FF) q = composeClassic t n q := by
  apply BitVec.eq_of_getLsbD_eq
  intro i hi
  have hmask : (n &&& 0x3FF).getLsbD (i - 12) = (decide (i - 12 < 10) && n.getLsbD (i - 12)) :=
    getLsbD_and_mask n 10 (i - 12) (by decide)
  rw [composeClassic_getLsbD, composeClassic_getLsbD, hmask, BitVec.getLsbD_or, BitVec.getLsbD_ushiftRight]
  by_cases h22 : 22 ≤ i
  · simp [h22, show ¬ i - 12 < 10 by omega, show 12 ≤ i by omega, show 10 + (i - 22) = i - 12 by omega]
  · simp [h22, show i - 12 < 10 by omega]

/-- Settles O16 by `composeClassic_wide_node`. -/
theorem wideNodeIdSpillsIntoTheTime : Obligations.WideNodeIdSpillsIntoTheTime := by
  intro t n q s
  refine ⟨_, _, exec_sfCompose t n q s, rfl, ?_⟩
  rw [exec_sfCompose, composeClassic_wide_node]

/-- Settles O4 with bit 22 set alone: time delta 1 in the classic layout, node ID 4096 in the semantic one. -/
theorem classicAndSemanticIdentifiersCanBeEqual : Obligations.ClassicAndSemanticIdentifiersCanBeEqual := by
  refine ⟨1, 0, 0, 0, 4096, 0, 0x400000, State.reset, _, ?_, ?_, ?_, ?_, ?_, ?_, ?_, ?_,
    exec_sfCompose 1 0 0 _, exec_semEncode 0 4096 0 _, rfl⟩ <;> decide

end Sys2Proof.Machine
end

section
/-! The generator operations one by one (40_generator.md R81, R82): GEN_INIT, and the ways a GEN_NEXT takes its
first sample and each later one. -/

namespace Sys2Proof.Machine

/-- Settles O17: the code is GEN_INIT's, and the free unit completes it (`execGenInit_idle`). -/
theorem genInitStartsTheGeneratorAfresh : Obligations.GenInitStartsTheGeneratorAfresh := by
  intro a b c s hp
  exact ⟨decode_eq_ok_iff.2 ⟨rfl, rfl⟩, execGenInit_idle a hp⟩

/-- Settles O18: neither operation is accepted (`execGenInit_busy`, `execGenNext_busy`). -/
theorem generatorRequestsWaitWhileBusy : Obligations.GeneratorRequestsWaitWhileBusy := by
  intro a b c s r u n hp
  exact ⟨execGenInit_busy a hp, execGenNext_busy hp⟩

/-- Settles O42: the meanings of the three operations are not given the operands that they ignore. -/
theorem unlistedOperandsAreIgnored : Obligations.UnlistedOperandsAreIgnored :=
  fun _ _ _ _ _ _ _ => ⟨rfl, rfl, rfl⟩

/-! ### GEN_NEXT's first sample -/

section
variable {s : State} (hp : s.phase = .idle) (hd : s.initDone = true)
include hp hd

/-- A first sample with another time delta than LAST. -/
theorem exec_genNext_advanced (a b c : Word) (ht : timeDelta s.nextSample s.epoch ≠ s.last) :
    exec (.genNext a b c) s =
      .next (s.takeSample.finishNext s.active (timeDelta s.nextSample s.epoch) 0) :=
  (execGenNext_allocate hp hd).trans (congrArg _ (State.allocate_advanced ht))

/-- A first sample with LAST's time delta, the sequence not spent. -/
theorem exec_genNext_sameMs (a b c : Word) (ht : timeDelta s.nextSample s.epoch = s.last)
    (hs : s.seq + 1 ≠ 0) :
    exec (.genNext a b c) s = .next (s.takeSample.finishNext s.active s.last (s.seq + 1)) :=
  (execGenNext_allocate hp hd).trans (congrArg _ (State.allocate_sameMs ht hs))

/-- A first sample with LAST's time delta, the sequence spent. -/
theorem exec_genNext_exhausted (a b c : Word) (ht : timeDelta s.nextSample s.epoch = s.last)
    (hs : s.seq + 1 = 0) :
    exec (.genNext a b c) s = .next { s.takeSample with phase := .busy s.active s.last 0 } :=
  (execGenNext_allocate hp hd).trans (congrArg _ (State.allocate_exhausted ht hs))

end

/-- Sequence 0 leaves the identifier's low bits clear. -/
theorem composeClassic_seq_zero (t n : Word) :
    composeClassic t n ((0 : SeqNo).setWidth 64) = t <<< 22 ||| n <<< 12 := by
  simp [composeClassic]

/-- A completion with sequence 0, its response as the spec writes it. -/
theorem State.finishNext_seq_zero (s : State) (r : RequesterId) (t : Word) :
    s.finishNext r t 0 =
      { s with
        last := t
        seq := 0
        phase := .idle
        pending := s.pending.erase r
        rsp := some ⟨r, .ok, t <<< 22 ||| s.node <<< 12, 0, 0, 0⟩ } := by
  rw [← composeClassic_seq_zero]
  rfl

/-- Settles O20 by `exec_genNext_advanced`. -/
theorem genNextOnAnotherMillisecond : Obligations.GenNextOnAnotherMillisecond := by
  intro a b c s hp hd ht
  rw [exec_genNext_advanced hp hd a b c ht, State.finishNext_seq_zero, ← hp]
  rfl

/-- Settles O21 by `exec_genNext_sameMs`: a sequence below 4095 does not wrap. -/
theorem genNextInTheSameMillisecond : Obligations.GenNextInTheSameMillisecond := by
  intro a b c s hp hd ht hs
  have hwrap : s.seq + 1 ≠ 0 := fun h => by
    rw [seq_add_one_eq_zero_iff] at h
    omega
  rw [exec_genNext_sameMs hp hd a b c ht hwrap, State.finishNext, ← hp]
  rfl

/-- Settles O22 by `exec_genNext_exhausted`. -/
theorem genNextWaitsWhenTheSequenceIsSpent : Obligations.GenNextWaitsWhenTheSequenceIsSpent := by
  intro a b c s hp hd ht hs
  exact exec_genNext_exhausted hp hd a b c ht (seq_add_one_eq_zero_iff.2 hs)

/-- Settles O26: after a GEN_INIT the unit is free with LAST = 0 and SEQ = 0, so GEN_NEXT's first sample
decides between `exec_genNext_sameMs` and `exec_genNext_advanced`. -/
theorem firstAllocationAfterInit : Obligations.FirstAllocationAfterInit := by
  intro nodeId b c s hp
  refine ⟨_, execGenInit_idle nodeId hp, fun heq => ?_, fun hne => ?_⟩
  · have ht := sub_eq_zero.2 heq
    have hwrap : (0 : SeqNo) + 1 ≠ 0 := by decide
    refine ⟨_, exec_genNext_sameMs (by exact hp) rfl 0 0 0 ht hwrap, ?_, rfl, rfl⟩
    simp [composeClassic, State.respondOk]
  · have ht := sub_ne_zero.2 hne
    refine ⟨_, exec_genNext_advanced (by exact hp) rfl 0 0 0 ht, ?_, rfl, rfl⟩
    rw [State.finishNext_seq_zero]
    rfl

/-! ### The busy-wait -/

/-- Settles O23: the step is one turn of the busy-wait, which goes on (`State.spinOnce_spun`) or ends
(`State.spinOnce_finished`). -/
theorem busyWaitEndsAboveLast : Obligations.BusyWaitEndsAboveLast := by
  intro s r u hm hp hu
  rw [step_spin hm]
  refine ⟨fun ht => ?_, fun ht => ?_⟩
  · rw [State.spinOnce_spun (s := s.takeMove) hp hu ht]
    rfl
  · rw [State.spinOnce_finished (s := s.takeMove) hp hu ht, State.finishNext_seq_zero]
    rfl

end Sys2Proof.Machine
end

section
/-! The encodings (30_encoding.md): request words, status codes, byte orders, and assembler lines. -/

namespace Sys2Proof

open Machine

/-! ### Request words -/

theorem decode_encodeRequest (i : Instr) : decode (encodeRequest i) = .ok i := by
  rw [decode_eq_ok_iff]
  cases i <;> exact ⟨rfl, rfl⟩

/-- Only the request that an instruction encodes to decodes to it. -/
theorem encodeRequest_of_decode {q : Request} {i : Instr} (h : decode q = .ok i) : encodeRequest i = q := by
  obtain ⟨op, a, b, c⟩ := q
  obtain ⟨hop, hi⟩ := decode_eq_ok_iff.1 h
  rw [hi]
  cases i <;> cases hop <;> rfl

/-- A word is read whole by its four fields. -/
theorem Request.toWord_ofWord (w : BitVec 196) : (Request.ofWord w).toWord = w := by
  apply BitVec.eq_of_getLsbD_eq
  intro i hi
  rw [Request.toWord_getLsbD]
  dsimp only [Request.ofWord]
  rw [BitVec.getLsbD_extractLsb', BitVec.getLsbD_extractLsb', BitVec.getLsbD_extractLsb',
    BitVec.getLsbD_extractLsb']
  by_cases hc : i < 64
  · simp [hc]
  · by_cases hb : i - 64 < 64
    · simp [hc, hb, show 64 + (i - 64) = i by omega]
    · by_cases ha : i - 64 - 64 < 64
      · simp [hc, hb, ha, show 128 + (i - 64 - 64) = i by omega]
      · simp [hc, hb, ha, show i - 64 - 64 - 64 < 4 by omega, show 192 + (i - 64 - 64 - 64) = i by omega]

/-- Settles O38: the word gives the request back (`Request.ofWord_toWord`), and the request the instruction
(`decode_encodeRequest`). -/
theorem decodeOfEncodeIsTheInstruction : Obligations.DecodeOfEncodeIsTheInstruction := by
  intro i _
  rw [decodeWord, encode, Request.ofWord_toWord, decode_encodeRequest]

/-- Settles O39: the instruction gives the request back (`encodeRequest_of_decode`), and the request the word
(`Request.toWord_ofWord`). -/
theorem encodeOfDecodeIsTheWord : Obligations.EncodeOfDecodeIsTheWord := by
  intro w i h
  rw [encode, encodeRequest_of_decode h, Request.toWord_ofWord]

/-- Settles O36: each of the fixed words is evaluated. -/
theorem writtenOutWordsDecode : Obligations.WrittenOutWordsDecode :=
  ⟨by decide, by decide, by decide, by decide, by decide, by decide⟩

/-! ### Statuses -/

/-- Settles O41, status by status. -/
theorem statusCodesLeaveThreeReserved : Obligations.StatusCodesLeaveThreeReserved := by
  refine ⟨rfl, rfl, rfl, fun st => ?_⟩
  cases st <;> decide

/-! ### Byte orders -/

/-- Appending byte `k` to the bytes above it. -/
theorem shift_or_byte (v : Word) (k : Nat) :
    (v >>> (8 * (k + 1))) <<< 8 ||| (v.extractLsb' (8 * k) 8).setWidth 64 = v >>> (8 * k) := by
  apply BitVec.eq_of_getLsbD_eq
  intro i hi
  rw [BitVec.getLsbD_or, BitVec.getLsbD_shiftLeft, BitVec.getLsbD_ushiftRight, BitVec.getLsbD_ushiftRight,
    getLsbD_field (by decide)]
  by_cases h8 : i < 8
  · simp [h8]
  · simp [hi, h8, show 8 * (k + 1) + (i - 8) = 8 * k + i by omega]

/-- The bytes from number `n - 1` down to number 0. -/
def bytesBelow (v : Word) : Nat → List Byte
  | 0 => []
  | n + 1 => v.extractLsb' (8 * n) 8 :: bytesBelow v n

/-- Reading on from the bytes above gives the value. -/
theorem foldl_bytesBelow (v : Word) (n : Nat) :
    (bytesBelow v n).foldl (fun (w : Word) x => w <<< 8 ||| x.setWidth 64) (v >>> (8 * n)) = v := by
  induction n with
  | zero => simp [bytesBelow]
  | succ n ih => rw [bytesBelow, List.foldl_cons, shift_or_byte, ih]

theorem ofBytesBE_bytesBelow (v : Word) : Word.ofBytesBE (bytesBelow v 8) = v := by
  have htop : (0 : Word) = v >>> (8 * 8) := (BitVec.ushiftRight_eq_zero (by decide)).symm
  rw [Word.ofBytesBE, htop, foldl_bytesBelow]

/-- Settles O40: either order writes the eight bytes of `bytesBelow`, one of them backward. -/
theorem eitherByteOrderCarriesTheValue : Obligations.EitherByteOrderCarriesTheValue := by
  intro o v
  cases o with
  | mostSignificantFirst => exact ⟨ofBytesBE_bytesBelow v, rfl⟩
  | leastSignificantFirst => exact ⟨ofBytesBE_bytesBelow v, rfl⟩

/-! ### Assembler lines -/

/-- Settles O37: each of the fixed lines is evaluated. -/
theorem assemblerLinesWriteRequests : Obligations.AssemblerLinesWriteRequests :=
  ⟨by decide, by decide, by decide, by decide, by decide, by decide, by decide, by decide, by decide⟩

end Sys2Proof
end

section
/-! Requests and the moves of the agents (20_memory.md): which step stops, which answers whom, and which
request the generator unit accepts. -/

namespace Sys2Proof.Machine

/-! ### Which steps stop -/

/-- Every operation is total (60_exceptions.md, introduction). -/
theorem exec_next (i : Instr) (s : State) : ∃ t, exec i s = .next t := by
  cases i with
  | semEncode a b c => exact ⟨_, exec_semEncode a b c s⟩
  | semDecode a b c => exact ⟨_, exec_semDecode a b c s⟩
  | sfCompose a b c => exact ⟨_, exec_sfCompose a b c s⟩
  | genInit a b c =>
    cases hp : s.phase with
    | idle => exact ⟨_, execGenInit_idle a hp⟩
    | busy r u n => exact ⟨_, execGenInit_busy a hp⟩
  | genNext a b c =>
    cases hp : s.phase with
    | busy r u n => exact ⟨_, execGenNext_busy hp⟩
    | idle =>
      cases hd : s.initDone with
      | false => exact ⟨_, execGenNext_uninit hp hd⟩
      | true => exact ⟨_, execGenNext_allocate hp hd⟩

/-- The decoder never stops. -/
theorem step_serve_next {s : State} {r : RequesterId} (hm : s.nextMove = .serve r) :
    ∃ t, step s = .next t := by
  cases hq : s.pending.find r with
  | none => exact ⟨_, step_serve_none hm hq⟩
  | some q =>
    obtain hd | ⟨i, hd⟩ := decode_illegalOp_or_ok q
    · exact ⟨_, step_serve_illegal hm hq hd⟩
    · rw [step_serve hm hq hd]
      exact exec_next i _

section
variable {s : State} {r : RequesterId} {q : Request} (hm : s.nextMove = .issue r q)
include hm

theorem step_issue_next (hr : r < Config.nRequesters) (hn : s.pending.find r = none) :
    step s = .next { s.takeMove with pending := s.pending.insert r q } := by
  simp [step_issue hm, issue, hr, hn]

theorem step_issue_second (hr : r < Config.nRequesters) (hn : s.pending.find r ≠ none) :
    step s = .fault (.secondRequest r) := by
  obtain ⟨q', hq'⟩ := Option.ne_none_iff_exists'.1 hn
  simp [step_issue hm, issue, hr, hq']

theorem step_issue_noRequester (hr : Config.nRequesters ≤ r) : step s = .fault (.noSuchRequester r) := by
  simp [step_issue hm, issue, not_lt.2 hr]

end

/-- Settles O50, one lemma a clause. -/
theorem issuingARequestMakesItOutstanding : Obligations.IssuingARequestMakesItOutstanding := by
  intro s r q hm
  refine ⟨fun hr hn => ⟨_, step_issue_next hm hr hn, Pending.find_insert_self _ _ _, fun r' hne => ?_,
    fun hw => Pending.insert_wf hw r q⟩, step_issue_second hm, step_issue_noRequester hm⟩
  simp [Pending.find_insert, hne]

/-- A step stops only on an issue that the environment is assumed never to make. -/
theorem step_next_or_bad_issue (s : State) :
    (∃ t, step s = .next t) ∨
      ∃ r q f, s.nextMove = .issue r q ∧ step s = .fault f ∧
        (s.pending.find r ≠ none ∨ Config.nRequesters ≤ r) := by
  cases hm : s.nextMove with
  | serve r => exact .inl (step_serve_next hm)
  | spin => exact .inl ⟨_, step_spin hm⟩
  | reset => exact .inl ⟨_, step_reset hm⟩
  | issue r q =>
    by_cases hr : r < Config.nRequesters
    · by_cases hn : s.pending.find r = none
      · exact .inl ⟨_, step_issue_next hm hr hn⟩
      · exact .inr ⟨r, q, _, rfl, step_issue_second hm hr hn, .inl hn⟩
    · exact .inr ⟨r, q, _, rfl, step_issue_noRequester hm (not_lt.1 hr), .inr (not_lt.1 hr)⟩

/-- Settles O51 by `step_next_or_bad_issue` and `exec_next`. -/
theorem onlyTheEnvironmentCanStopTheModel : Obligations.OnlyTheEnvironmentCanStopTheModel := by
  refine ⟨fun s f hf => ?_, fun s x hx => ?_, exec_next⟩
  · obtain ⟨t, ht⟩ | ⟨r, q, -, hm, -, hbad⟩ := step_next_or_bad_issue s
    · cases hf.symm.trans ht
    · exact ⟨r, q, hm, hbad⟩
  · obtain ⟨t, ht⟩ | ⟨r, q, f, -, hf, -⟩ := step_next_or_bad_issue s
    · cases hx.symm.trans ht
    · cases hx.symm.trans hf

/-! ### What a step reads -/

theorem decode_of_decodeTableWord {nbits w : Nat} {i : Instr} (h : decodeTableWord nbits w = some i) :
    decode (Request.ofTableWord nbits w) = .ok i := by
  rw [decodeTableWord, decodeWord, Request.ofWord_toWord] at h
  split at h
  next hd => exact hd.trans (congrArg _ (Option.some_injective _ h))
  next => cases h

/-- Settles O32: both clauses are `step_serve`; a placed word is the request of requester 0, and a free unit
stays free. -/
theorem stepRunsTheDecodedInstruction : Obligations.StepRunsTheDecodedInstruction := by
  refine ⟨fun s r q i hm hq hd => step_serve hm hq hd, fun s nbits w i h hp => ?_⟩
  have hfind : (s.withFetchWord nbits w).pending.find 0 = some (Request.ofTableWord nbits w) :=
    Pending.find_insert_self _ _ _
  have hphase : phaseForRequest (Request.ofTableWord nbits w) s.phase = s.phase := by
    rw [hp]
    rfl
  rw [step_serve (r := 0) rfl hfind (decode_of_decodeTableWord h), State.withFetchWord, State.presentRequest,
    hphase]
  rfl

/-- Settles O45: the step frees both ports before it makes its move. -/
theorem noStepReadsAnEarlierResponse : Obligations.NoStepReadsAnEarlierResponse := fun _ _ _ => rfl

/-! ### Who is answered -/

/-- What a step does to the outstanding requests. -/
inductive PendingStep (s t : State) : Prop
  /-- They stay, and nobody is answered. -/
  | unchanged (hr : t.rsp = none) (hp : t.pending = s.pending)
  /-- A requester with none issues one. -/
  | issued (r : RequesterId) (q : Request) (hr : t.rsp = none) (hn : s.pending.find r = none)
      (hp : t.pending = s.pending.insert r q)
  /-- A requester with a request outstanding, or with a busy-wait in flight, is answered. -/
  | answered (r : RequesterId) (x : Response) (hr : t.rsp = some ⟨r, x⟩)
      (hq : s.pending.find r ≠ none ∨ ∃ u n, s.phase = .busy r u n) (hp : t.pending = s.pending.erase r)
  /-- Reset discards them. -/
  | reset (hm : s.nextMove = .reset) (hr : t.rsp = none)

theorem pendingStep {s t : State} (h : step s = .next t) : PendingStep s t := by
  cases step_cases h with
  | issued r q hm hr hn => exact .issued r q rfl hn rfl
  | nothing hm => exact .unchanged rfl rfl
  | waits r q o u n hm hq hg hp => exact .unchanged rfl rfl
  | exhausted r q hm hq hg hi hp hd ht hs => exact .unchanged rfl rfl
  | spun r u n hm hp hu ht => exact .unchanged rfl rfl
  | finished r u n hm hp hu ht => exact .answered r _ rfl (.inr ⟨u, n, hp⟩) rfl
  | stale r u n hm hp hu => exact .answered r _ rfl (.inr ⟨u, n, hp⟩) rfl
  | reset hm => exact .reset hm rfl
  | coded r q x hm hq hi hg hx => exact .answered r _ rfl (.inl (by simp [hq])) rfl
  | inited r q hm hq hi hg hp => exact .answered r _ rfl (.inl (by simp [hq])) rfl
  | uninit r q hm hq hg hi hp hd => exact .answered r _ rfl (.inl (by simp [hq])) rfl
  | advanced r q hm hq hg hi hp hd ht => exact .answered r _ rfl (.inl (by simp [hq])) rfl
  | sameMs r q hm hq hg hi hp hd ht hs => exact .answered r _ rfl (.inl (by simp [hq])) rfl

/-- Settles O46: by `pendingStep`, a response takes out its own requester's request alone. The invariant is
needed for a busy-wait's requester, whose GEN_NEXT is outstanding by it. -/
theorem eachResponseAnswersOneRequest : Obligations.EachResponseAnswersOneRequest := by
  intro s t hs h
  cases pendingStep h with
  | unchanged hr hp =>
    refine ⟨fun d hd => by simp [hr] at hd, fun r q hq => .inl ?_⟩
    rw [hp]
    exact hq
  | issued r q hr hn hp =>
    refine ⟨fun d hd => by simp [hr] at hd, fun r' q' hq' => .inl ?_⟩
    have hne : r' ≠ r := by
      rintro rfl
      simp [hn] at hq'
    simpa [hp, Pending.find_insert, hne] using hq'
  | answered r x hr hq hp =>
    have hout : s.pending.find r ≠ none := hq.elim id fun ⟨u, n, hbusy⟩ => by
      obtain ⟨q, hq, -⟩ := hs.pending_of_busy hbusy
      simp [hq]
    rw [hr, hp]
    constructor
    · rintro _ ⟨⟩
      exact ⟨hout, Pending.find_erase_self _ _, fun r' hne => Pending.find_erase_of_ne _ hne⟩
    · intro r' q' hq'
      by_cases hne : r' = r
      · subst hne
        exact .inr (.inr ⟨Pending.find_erase_self _ _, _, rfl, rfl⟩)
      · exact .inl ((Pending.find_erase_of_ne _ hne).trans hq')
  | reset hm hr => exact ⟨fun d hd => by simp [hr] at hd, fun r q hq => .inr (.inl hm)⟩

/-! ### What the generator unit accepts -/

/-- A free unit accepts the generator request it is served: it answers at once, or begins a busy-wait. -/
theorem step_serve_accepts {s : State} {r : RequesterId} {q : Request} (hm : s.nextMove = .serve r)
    (hq : s.pending.find r = some q) (hp : s.phase = .idle) (hg : q.op = 0x8 ∨ q.op = 0x9) :
    ∃ t, step s = .next t ∧ t.moves = s.moves.tail ∧
      ((∃ x, t.rsp = some ⟨r, x⟩ ∧ t.phase = .idle) ∨ ∃ u, t.phase = .busy r u 0) := by
  have hp' : (s.serving r).phase = .idle := hp
  obtain hop | hop := hg
  · have hd : decode q = .ok (.genInit q.a q.b q.c) := decode_eq_ok_iff.2 ⟨hop, rfl⟩
    exact ⟨_, (step_serve hm hq hd).trans (execGenInit_idle _ hp'), rfl, .inl ⟨_, rfl, hp⟩⟩
  · have hserve := step_serve hm hq (decode_genNext hop)
    cases hd : (s.serving r).initDone with
    | false => exact ⟨_, hserve.trans (execGenNext_uninit hp' hd), rfl, .inl ⟨_, rfl, hp⟩⟩
    | true =>
      by_cases ht : timeDelta (s.serving r).nextSample (s.serving r).epoch = (s.serving r).last
      · by_cases hs : (s.serving r).seq + 1 = 0
        · exact ⟨_, hserve.trans (exec_genNext_exhausted hp' hd _ _ _ ht hs), rfl, .inr ⟨_, rfl⟩⟩
        · exact ⟨_, hserve.trans (exec_genNext_sameMs hp' hd _ _ _ ht hs), rfl, .inl ⟨_, rfl, rfl⟩⟩
      · exact ⟨_, hserve.trans (exec_genNext_advanced hp' hd _ _ _ ht), rfl, .inl ⟨_, rfl, rfl⟩⟩

/-- Settles O49 with the move that serves the request (`step_serve_accepts`). -/
theorem anyWaitingRequestMayBeAcceptedNext : Obligations.AnyWaitingRequestMayBeAcceptedNext := by
  intro s r q hp hq hg
  obtain ⟨t, ht⟩ := step_serve_accepts
    (s := { s with moves := ⟨.serve r :: s.moves.ahead, s.moves.drawn⟩ }) (r := r) rfl hq hp hg
  exact ⟨.serve r, t, ht⟩

/-! ### Reset -/

/-- Settles O53: the step's result is the reset state with the supplies of before (`step_reset`). -/
theorem resetDiscardsEveryRequest : Obligations.ResetDiscardsEveryRequest := fun _ hm =>
  ⟨_, step_reset hm, rfl, rfl, rfl, rfl, rfl, rfl, rfl, rfl, fun _ => rfl, rfl, rfl⟩

end Sys2Proof.Machine
end

section
/-! The premises of "Uniqueness and order" are needed: two runs that return an identifier twice
(95_test_vectors.md P4, P5). -/

namespace Sys2Proof.Machine

/-- A state right after a GEN_INIT with EPOCH 1000000, requests outstanding, and the samples and moves to
come. -/
def State.afterInit (node : Word) (pending : Pending) (samples : List Word) (moves : List Move) : State :=
  { State.reset with
    epoch := 1000000
    node := node
    initDone := true
    pending := pending
    samples := ⟨samples, 0⟩
    moves := ⟨moves, 0⟩ }

/-- Three GEN_NEXTs, between which the clock goes from 11 back to 10 (P4). -/
def backwardRun : State :=
  .afterInit 1 [(0, ⟨0x9, 0, 0, 0⟩), (1, ⟨0x9, 0, 0, 0⟩), (2, ⟨0x9, 0, 0, 0⟩)]
    [1000010, 1000011, 1000010] [.serve 0, .serve 1, .serve 2]

/-- Two GEN_NEXTs, a GEN_INIT with the same node ID and a GEN_NEXT, while the clock stands at 20 (P5). -/
def restartedRun : State :=
  .afterInit 2 [(0, ⟨0x9, 0, 0, 0⟩), (1, ⟨0x9, 0, 0, 0⟩), (2, ⟨0x8, 2, 0, 0⟩), (3, ⟨0x9, 0, 0, 0⟩)]
    [1000020, 1000020, 1000020] [.serve 0, .serve 1, .serve 2, .serve 3]

/-- A step that answers no GEN_INIT restarts nothing. -/
theorem noRestart_of_answered {s t : State} {q : Request} {x : Response} (hm : s.nextMove ≠ .reset)
    (ha : answered s t = some (q, x)) (hi : q.isGenInit = false) : NoRestart s t :=
  ⟨hm, fun q' x' ha' => by
    cases ha.symm.trans ha'
    exact hi⟩

theorem backwardRun_noRestart : AlongRun NoRestart 3 backwardRun :=
  ⟨_, rfl, noRestart_of_answered nofun rfl rfl, _, rfl, noRestart_of_answered nofun rfl rfl,
    _, rfl, noRestart_of_answered nofun rfl rfl, trivial⟩

theorem restartedRun_noReset : AlongRun NoReset 4 restartedRun :=
  ⟨_, rfl, nofun, _, rfl, nofun, _, rfl, nofun, _, rfl, nofun, trivial⟩

theorem samplesTaken_backwardRun : samplesTaken 3 backwardRun = [1000010, 1000011, 1000010] := by decide

theorem samplesTaken_restartedRun : samplesTaken 4 restartedRun = [1000020, 1000020, 1000020] := by decide

/-- Settles O30 with the run `backwardRun`. -/
theorem aBackwardClockCanRepeatAnIdentifier : Obligations.ABackwardClockCanRepeatAnIdentifier := by
  refine ⟨3, backwardRun, rfl, rfl, rfl, rfl, by decide, backwardRun_noRestart, ?_, by decide⟩
  rw [samplesTaken_backwardRun]
  simp [backwardRun, State.afterInit]

/-- Settles O31 with the run `restartedRun`. -/
theorem reinitialisingCanRepeatAnIdentifier : Obligations.ReinitialisingCanRepeatAnIdentifier := by
  refine ⟨4, restartedRun, rfl, rfl, rfl, rfl, by decide, restartedRun_noReset, ?_, by decide⟩
  rw [samplesTaken_restartedRun]
  simp [restartedRun, State.afterInit]

end Sys2Proof.Machine
end
